-- ==== Sys2Proof/Word.lean ====
section
/-! DEFINITION. The words of base32_decoder: a byte, a command word, a response data word, a symbol value
(00_scope.md R5, R6; 20_memory.md R31; 30_encoding.md R45, R46). -/

namespace Sys2Proof

/-- A byte is 8 bits (20_memory.md R31). -/
abbrev Byte := BitVec 8

/-- A command word is `CMD_W` = 16 bits (30_encoding.md R45). -/
abbrev CommandWord := BitVec 16

/-- The response data field is `RESP_DATA_W` = 32 bits (30_encoding.md R46). -/
abbrev Data := BitVec 32

/-- An alphabet value is `SYM_BITS` = 5 bits (00_scope.md R5). -/
abbrev SymValue := BitVec 5

/-- `v << k` of 00_scope.md R8: on unbounded naturals, nothing is lost. -/
def shiftLeft (v k : Nat) : Nat := v * 2 ^ k

/-- `v >> k` of 00_scope.md R8: `floor(v / 2^k)`. -/
def shiftRight (v k : Nat) : Nat := v / 2 ^ k

end Sys2Proof
end

