-- ==== Sys2Proof/Machine/Alphabet.lean ====
section
/-! DEFINITION. The alphabet: the function `lookup` of 30_encoding.md R50 on the 8-bit symbol codes of format SYM8. -/

namespace Sys2Proof.Machine

/-- The three classes of symbol codes (30_encoding.md R50). -/
inductive SymClass where
  /-- A code of the 32-symbol alphabet, with its 5-bit value (R51 to R53). -/
  | value (v : SymValue)
  /-- The padding code `=` (R54). -/
  | pad
  /-- Any other code (R55). -/
  | none
  deriving DecidableEq, Repr

/-- The code of `=` (30_encoding.md R54). -/
def padCode : Byte := 0x3D

/-- `lookup(c)` (30_encoding.md R50): letters of either case to 0..25, digits `2`..`7` to 26..31, `=` to PAD. -/
def lookup (c : Byte) : SymClass :=
  if 0x41 ≤ c ∧ c ≤ 0x5A then .value (BitVec.ofNat 5 (c.toNat - 0x41))
  else if 0x61 ≤ c ∧ c ≤ 0x7A then .value (BitVec.ofNat 5 (c.toNat - 0x61))
  else if 0x32 ≤ c ∧ c ≤ 0x37 then .value (BitVec.ofNat 5 (c.toNat - 0x32 + 26))
  else if c = padCode then .pad
  else .none

end Sys2Proof.Machine
end

