-- ==== Sys2Proof/Syntax.lean ====
section
/-! DEFINITION. The instructions: one constructor per row of spec/opcode_table.json. The first eleven are the commands
of format CMD16 (30_encoding.md R48). The other 59 are the symbol codes of format SYM8 (R50 to R54): a symbol code
reaches the block only as the operand of `B32.SYM` (R47, R59), so the instruction of such a row is `B32.SYM` carrying
that code (notes/assumptions/8.md). -/

namespace Sys2Proof

inductive Instr where
  /-- `RDREG n` (43_system.md R97). -/
  | rdreg (n : Byte)
  /-- `SRESET` (43_system.md R98). -/
  | sreset
  /-- `B32.START` (40_b32_decode.md R65). -/
  | b32Start
  /-- `B32.SYM sym` (40_b32_decode.md R66). The decoder gives this constructor for the 197 codes that no SYM8 row
names; its meaning is written for all 256. -/
  | b32Sym (sym : Byte)
  /-- `B32.END` (40_b32_decode.md R72). -/
  | b32End
  /-- `B32.RDB i` (40_b32_decode.md R73). -/
  | b32Rdb (i : Byte)
  /-- `TRN.CLR` (41_truncate.md R80). -/
  | trnClr
  /-- `TRN.PUSH byte` (41_truncate.md R81). -/
  | trnPush (byte : Byte)
  /-- `TRN.GO` (41_truncate.md R82). -/
  | trnGo
  /-- `DIG.GO` (42_digits.md R90). -/
  | digGo
  /-- `DIG.RDC i` (42_digits.md R92). -/
  | digRdc (i : Byte)
  -- Upper-case letters: `B32.SYM 'A'` to `B32.SYM 'Z'` (30_encoding.md R51).
  | symUpperA | symUpperB | symUpperC | symUpperD | symUpperE | symUpperF | symUpperG
  | symUpperH | symUpperI | symUpperJ | symUpperK | symUpperL | symUpperM | symUpperN
  | symUpperO | symUpperP | symUpperQ | symUpperR | symUpperS | symUpperT | symUpperU
  | symUpperV | symUpperW | symUpperX | symUpperY | symUpperZ
  -- Lower-case letters: `B32.SYM 'a'` to `B32.SYM 'z'` (30_encoding.md R52).
  | symLowerA | symLowerB | symLowerC | symLowerD | symLowerE | symLowerF | symLowerG
  | symLowerH | symLowerI | symLowerJ | symLowerK | symLowerL | symLowerM | symLowerN
  | symLowerO | symLowerP | symLowerQ | symLowerR | symLowerS | symLowerT | symLowerU
  | symLowerV | symLowerW | symLowerX | symLowerY | symLowerZ
  -- Digits: `B32.SYM '2'` to `B32.SYM '7'` (30_encoding.md R53).
  | symDigit2 | symDigit3 | symDigit4 | symDigit5 | symDigit6 | symDigit7
  -- Padding: `B32.SYM '='` (30_encoding.md R54).
  | symPad
  deriving DecidableEq, Repr

end Sys2Proof
end

