-- ==== Sys2Proof/WellFormed.lean ====
section
/-! DEFINITION. When an instruction is well formed. Every operand is 8 bits and every 8-bit operand is encodable
(30_encoding.md R45, R47), so the one check keeps each command word one instruction: `B32.SYM` with a code that has a
SYM8 row of its own (30_encoding.md R50 to R54) is that row's constructor. -/

namespace Sys2Proof

/-- `b32Sym sym` stands for the codes of class `NONE` only (30_encoding.md R55). -/
def Instr.wf : Instr → Bool
  | .b32Sym sym => Machine.lookup sym == .none
  | .rdreg _ | .sreset | .b32Start | .b32End | .b32Rdb _ => true
  | .trnClr | .trnPush _ | .trnGo | .digGo | .digRdc _ => true
  | .symUpperA | .symUpperB | .symUpperC | .symUpperD | .symUpperE | .symUpperF | .symUpperG => true
  | .symUpperH | .symUpperI | .symUpperJ | .symUpperK | .symUpperL | .symUpperM | .symUpperN => true
  | .symUpperO | .symUpperP | .symUpperQ | .symUpperR | .symUpperS | .symUpperT | .symUpperU => true
  | .symUpperV | .symUpperW | .symUpperX | .symUpperY | .symUpperZ => true
  | .symLowerA | .symLowerB | .symLowerC | .symLowerD | .symLowerE | .symLowerF | .symLowerG => true
  | .symLowerH | .symLowerI | .symLowerJ | .symLowerK | .symLowerL | .symLowerM | .symLowerN => true
  | .symLowerO | .symLowerP | .symLowerQ | .symLowerR | .symLowerS | .symLowerT | .symLowerU => true
  | .symLowerV | .symLowerW | .symLowerX | .symLowerY | .symLowerZ => true
  | .symDigit2 | .symDigit3 | .symDigit4 | .symDigit5 | .symDigit6 | .symDigit7 => true
  | .symPad => true

end Sys2Proof
end

