-- ==== Sys2Proof/Decode.lean ====
section
/-! DEFINITION. The decoder of command words, total, refusing by name, and after it the encoder. Both are written from
30_encoding.md R45, R48, R49 (format CMD16) and R50 to R54 (format SYM8). -/

namespace Sys2Proof

/-- Field `op`, bits [15:8] (R45). -/
def opField (w : CommandWord) : Byte := w.extractLsb' 8 8

/-- Field `arg`, bits [7:0] (R45). -/
def argField (w : CommandWord) : Byte := w.extractLsb' 0 8

/-- Why a word is no command (R49). -/
inductive DecodeError where
  /-- `op` is none of the eleven assigned values. -/
  | unassignedOp
  /-- `arg` is not 0 on a command that takes no operand. -/
  | operandNotZero
  deriving DecidableEq, Repr

/-- Upper-case rows of format SYM8 (R51). -/
def upperRows : List (Byte × Instr) :=
  [(0x41, .symUpperA), (0x42, .symUpperB), (0x43, .symUpperC), (0x44, .symUpperD), (0x45, .symUpperE), (0x46, .symUpperF)] ++
  [(0x47, .symUpperG), (0x48, .symUpperH), (0x49, .symUpperI), (0x4A, .symUpperJ), (0x4B, .symUpperK), (0x4C, .symUpperL)] ++
  [(0x4D, .symUpperM), (0x4E, .symUpperN), (0x4F, .symUpperO), (0x50, .symUpperP), (0x51, .symUpperQ), (0x52, .symUpperR)] ++
  [(0x53, .symUpperS), (0x54, .symUpperT), (0x55, .symUpperU), (0x56, .symUpperV), (0x57, .symUpperW), (0x58, .symUpperX)] ++
  [(0x59, .symUpperY), (0x5A, .symUpperZ)]

/-- Lower-case rows of format SYM8 (R52). -/
def lowerRows : List (Byte × Instr) :=
  [(0x61, .symLowerA), (0x62, .symLowerB), (0x63, .symLowerC), (0x64, .symLowerD), (0x65, .symLowerE), (0x66, .symLowerF)] ++
  [(0x67, .symLowerG), (0x68, .symLowerH), (0x69, .symLowerI), (0x6A, .symLowerJ), (0x6B, .symLowerK), (0x6C, .symLowerL)] ++
  [(0x6D, .symLowerM), (0x6E, .symLowerN), (0x6F, .symLowerO), (0x70, .symLowerP), (0x71, .symLowerQ), (0x72, .symLowerR)] ++
  [(0x73, .symLowerS), (0x74, .symLowerT), (0x75, .symLowerU), (0x76, .symLowerV), (0x77, .symLowerW), (0x78, .symLowerX)] ++
  [(0x79, .symLowerY), (0x7A, .symLowerZ)]

/-- Digit rows of format SYM8 (R53). -/
def digitRows : List (Byte × Instr) :=
  [(0x32, .symDigit2), (0x33, .symDigit3), (0x34, .symDigit4), (0x35, .symDigit5), (0x36, .symDigit6), (0x37, .symDigit7)]

/-- The 59 rows of format SYM8: the three alphabet ranges and the padding code 0x3D (R54). -/
def sym8Rows : List (Byte × Instr) := upperRows ++ lowerRows ++ digitRows ++ [(0x3D, .symPad)]

/-- The SYM8 row that names a symbol code, if one does (R50). -/
def decodeSym8 (sym : Byte) : Option Instr :=
  (sym8Rows.find? fun r => r.1 == sym).map fun r => r.2

/-- The instruction of `B32.SYM sym`: the symbol's own row where it has one. -/
def decodeSymbolCommand (sym : Byte) : Instr := (decodeSym8 sym).getD (.b32Sym sym)

/-- A row of the opcode map (R48): a word `w` selects it when `w & mask = pattern`. -/
structure CommandRow where
  pattern : CommandWord
  mask : CommandWord
  build : Byte → Instr

/-- The opcode map (R48). -/
def commandRows : List CommandRow :=
  [⟨0x0100, 0xFF00, .rdreg⟩, ⟨0x0200, 0xFFFF, fun _ => .sreset⟩] ++
  [⟨0x1000, 0xFFFF, fun _ => .b32Start⟩, ⟨0x1100, 0xFF00, decodeSymbolCommand⟩,
   ⟨0x1200, 0xFFFF, fun _ => .b32End⟩, ⟨0x1300, 0xFF00, .b32Rdb⟩] ++
  [⟨0x2000, 0xFFFF, fun _ => .trnClr⟩, ⟨0x2100, 0xFF00, .trnPush⟩, ⟨0x2200, 0xFFFF, fun _ => .trnGo⟩] ++
  [⟨0x3000, 0xFFFF, fun _ => .digGo⟩, ⟨0x3100, 0xFF00, .digRdc⟩]

/-- `w` selects the row (R48). -/
def CommandRow.selects (r : CommandRow) (w : CommandWord) : Bool := w &&& r.mask == r.pattern

/-- `op` is one of the eleven assigned values (R49). -/
def opAssigned (op : Byte) : Bool :=
  [0x01, 0x02, 0x10, 0x11, 0x12, 0x13, 0x20, 0x21, 0x22, 0x30, 0x31].contains op

/-- The decoder of command words: total, and every word that selects no row is refused (R48, R49). -/
def decode (w : CommandWord) : Except DecodeError Instr :=
  match commandRows.find? fun r => r.selects w with
  | some r => .ok (r.build (argField w))
  | none => .error (if opAssigned (opField w) then .operandNotZero else .unassignedOp)

/-- `(op << 8) | arg` (30_encoding.md R57). -/
def commandWord (op arg : Byte) : CommandWord := op.setWidth 16 <<< 8 ||| arg.setWidth 16

/-- The encoder: the command word of an instruction (R48, R51 to R54). -/
def encode : Instr → CommandWord
  | .rdreg n => commandWord 0x01 n
  | .sreset => 0x0200
  | .b32Start => 0x1000
  | .b32Sym sym => commandWord 0x11 sym
  | .b32End => 0x1200
  | .b32Rdb i => commandWord 0x13 i
  | .trnClr => 0x2000
  | .trnPush byte => commandWord 0x21 byte
  | .trnGo => 0x2200
  | .digGo => 0x3000
  | .digRdc i => commandWord 0x31 i
  | .symUpperA => 0x1141
  | .symUpperB => 0x1142
  | .symUpperC => 0x1143
  | .symUpperD => 0x1144
  | .symUpperE => 0x1145
  | .symUpperF => 0x1146
  | .symUpperG => 0x1147
  | .symUpperH => 0x1148
  | .symUpperI => 0x1149
  | .symUpperJ => 0x114A
  | .symUpperK => 0x114B
  | .symUpperL => 0x114C
  | .symUpperM => 0x114D
  | .symUpperN => 0x114E
  | .symUpperO => 0x114F
  | .symUpperP => 0x1150
  | .symUpperQ => 0x1151
  | .symUpperR => 0x1152
  | .symUpperS => 0x1153
  | .symUpperT => 0x1154
  | .symUpperU => 0x1155
  | .symUpperV => 0x1156
  | .symUpperW => 0x1157
  | .symUpperX => 0x1158
  | .symUpperY => 0x1159
  | .symUpperZ => 0x115A
  | .symLowerA => 0x1161
  | .symLowerB => 0x1162
  | .symLowerC => 0x1163
  | .symLowerD => 0x1164
  | .symLowerE => 0x1165
  | .symLowerF => 0x1166
  | .symLowerG => 0x1167
  | .symLowerH => 0x1168
  | .symLowerI => 0x1169
  | .symLowerJ => 0x116A
  | .symLowerK => 0x116B
  | .symLowerL => 0x116C
  | .symLowerM => 0x116D
  | .symLowerN => 0x116E
  | .symLowerO => 0x116F
  | .symLowerP => 0x1170
  | .symLowerQ => 0x1171
  | .symLowerR => 0x1172
  | .symLowerS => 0x1173
  | .symLowerT => 0x1174
  | .symLowerU => 0x1175
  | .symLowerV => 0x1176
  | .symLowerW => 0x1177
  | .symLowerX => 0x1178
  | .symLowerY => 0x1179
  | .symLowerZ => 0x117A
  | .symDigit2 => 0x1132
  | .symDigit3 => 0x1133
  | .symDigit4 => 0x1134
  | .symDigit5 => 0x1135
  | .symDigit6 => 0x1136
  | .symDigit7 => 0x1137
  | .symPad => 0x113D

/-- The symbol code an instruction delivers: the operand of `B32.SYM` and of every SYM8 row, none for the others. -/
def symbolOf (i : Instr) : Option Byte :=
  if opField (encode i) = 0x11 then some (argField (encode i)) else none

/-- The command word of a row of the opcode table whose bits are `w`: a CMD16 row's word itself, or, for an 8-bit code
of format SYM8, the `B32.SYM` command that carries it (notes/assumptions/9.md). -/
def tableCommandWord (nbits w : Nat) : CommandWord :=
  if nbits ≤ 8 then commandWord 0x11 (BitVec.ofNat 8 w) else BitVec.ofNat 16 w

/-- The host's question: the instruction the decoder reads from a row of the opcode table. -/
def decodeTableWord (nbits w : Nat) : Option Instr :=
  match decode (tableCommandWord nbits w) with
  | .ok i => some i
  | .error _ => none

end Sys2Proof
end

