-- ==== Sys2Proof/Config.lean ====
section
/-! DEFINITION. What an implementation fixes: the parameters of 00_scope.md R5 and R6. The parameters D0 fixes are
constants; `OUT_MAX` and `ROUND_TIE` are open (92_eei_decisions.md, "Open parameters"), so each is a type whose
values a statement quantifies over. `HMAC_SHA1` is an argument of the host flow (Machine/HostFlow.lean). -/

namespace Sys2Proof.Config

/-- `DIGEST_LEN` (R5). -/
def digestLen : Nat := 20

/-- `DIGITS` (R5). -/
def digits : Nat := 6

/-- `MODULUS` (R5). -/
def modulus : Nat := 1000000

/-- `STEP_SECONDS` of the host (R5). -/
def stepSeconds : Nat := 30

/-- `COUNTER_BYTES` of the host (R5). -/
def counterBytes : Nat := 8

/-- `OUT_MAX` (R6, D6): a number of bytes, or infinity. -/
inductive Capacity where
  | bytes (n : Nat)
  | infinite
  deriving DecidableEq, Repr

/-- The values `OUT_MAX` may have: `1 <= OUT_MAX <= 256`, or infinity (R6). -/
def Capacity.wf : Capacity → Bool
  | .bytes n => decide (1 ≤ n) && decide (n ≤ 256)
  | .infinite => true

/-- `i` is the index of a byte of a buffer of this capacity (20_memory.md R30). -/
def Capacity.holds : Capacity → Nat → Bool
  | .bytes n, i => decide (i < n)
  | .infinite, _ => true

/-- `n` bytes fit in a buffer of this capacity. -/
def Capacity.fits : Capacity → Nat → Bool
  | .bytes m, n => decide (n ≤ m)
  | .infinite, _ => true

/-- The default of R6 and D6: 64 bytes. -/
def defaultCapacity : Capacity := .bytes 64

/-- `ROUND_TIE` of the host (R6, D21): what "standard rounding" does to an instant exactly half-way between seconds. -/
inductive RoundTie where
  | halfUp
  | halfEven
  deriving DecidableEq, Repr

end Sys2Proof.Config
end

