-- ==== Sys2Proof/Machine/State.lean ====
section
/-! DEFINITION. The state of the block as plain data: the fourteen registers and three byte files of 10_state.md R10,
the ports (inputs and response), and the parameter OUT_MAX. -/

namespace Sys2Proof.Machine

/-- A byte file: address and byte pairs, addresses strictly rising, no entry equal to what an unlisted address reads
as (`Memory.wf`, Machine/Ops.lean). -/
abbrev Memory := List Host.Cell

/-- `ST`, the state of the B32 unit (10_state.md R16). -/
inductive UnitState where
  | idle
  | run
  | done
  | fault
  deriving DecidableEq, Repr

/-- The fault codes a response carries (60_exceptions.md R121). -/
inductive FaultCode where
  | ok
  | invalidCharacter
  | illegalCommand
  | sequence
  | range
  | capacity
  deriving DecidableEq, Repr

/-- `fc` as `FC_W` = 4 bits (60_exceptions.md R121). -/
def FaultCode.code : FaultCode → BitVec 4
  | .ok => 0
  | .invalidCharacter => 1
  | .illegalCommand => 2
  | .sequence => 3
  | .range => 4
  | .capacity => 5

/-- A response (30_encoding.md R46). -/
structure Response where
  fc : FaultCode
  data : Data
  deriving DecidableEq, Repr

/-- What the outside world presents at the block's ports: a command word on the command channel, or an assertion of
the reset input (70_reset_and_hazards.md R140, R149). -/
inductive Input where
  | command (w : CommandWord)
  | reset
  deriving DecidableEq, Repr

/-- The registers and the byte file of the B32 unit (10_state.md R11 to R18). -/
structure B32Regs where
  cur : Byte
  brem : BitVec 4
  scnt : Nat
  ocnt : Nat
  pad : Bool
  st : UnitState
  errcode : BitVec 4
  errchar : Byte
  out : Memory
  deriving DecidableEq, Repr

/-- The registers and the byte file of the TRN unit (10_state.md R19 to R21). -/
structure TrnRegs where
  dg : Memory
  dgn : BitVec 5
  off : BitVec 4
  bin : BitVec 32
  binv : Bool
  deriving DecidableEq, Repr

/-- The registers and the byte file of the DIG unit (10_state.md R22, R23). -/
structure DigRegs where
  num : BitVec 20
  code : Memory
  digv : Bool
  deriving DecidableEq, Repr

/-- Reset values of the B32 unit (10_state.md R28). -/
def B32Regs.reset : B32Regs :=
  { cur := 0, brem := 8, scnt := 0, ocnt := 0, pad := false, st := .idle, errcode := 0, errchar := 0, out := [] }

/-- Reset values of the TRN unit (10_state.md R28). -/
def TrnRegs.reset : TrnRegs := { dg := [], dgn := 0, off := 0, bin := 0, binv := false }

/-- Reset values of the DIG unit (10_state.md R28). -/
def DigRegs.reset : DigRegs := { num := 0, code := [], digv := false }

/-- The machine. -/
structure State where
  b32 : B32Regs
  trn : TrnRegs
  dig : DigRegs
  /-- The parameter `OUT_MAX` (00_scope.md R6); no step changes it (notes/assumptions/2.md). -/
  outMax : Config.Capacity
  /-- What the outside world presents next, oldest first (notes/assumptions/1.md). -/
  inputs : List Input
  /-- The response to the last command (30_encoding.md R46; notes/assumptions/6.md). -/
  resp : Option Response
  deriving DecidableEq, Repr

/-- The machine right after reset, for a given `OUT_MAX` (10_state.md R28; 70_reset_and_hazards.md R140). -/
def State.resetFor (cap : Config.Capacity) : State :=
  { b32 := .reset, trn := .reset, dig := .reset, outMax := cap, inputs := [], resp := none }

/-- The machine right after reset, with the default `OUT_MAX` of 00_scope.md R6. -/
def State.reset : State := State.resetFor Config.defaultCapacity

/-- The three byte files (20_memory.md R30). -/
inductive Space where
  | out
  | dg
  | code
  deriving DecidableEq, Repr

/-- Why the machine stops. The spec stops nowhere (93_implementation_defined.md: "Nothing in this spec is treated as
stuck"); its own five faults are responses, hence next states. -/
inductive Fault where
  /-- Raised by `memRead` and `memWrite` for an index outside the byte file's space (20_memory.md R30). Safe: it arises
  only in a state that breaks 10_state.md R27, which no run reaches (notes/assumptions/11.md). -/
  | noSuchByte (space : Space) (index : Nat)
  deriving DecidableEq, Repr

/-- Why an instruction has no meaning. -/
inductive Refusal where
  /-- An instruction whose arm has no meaning yet. Safe. No arm of this model raises it. -/
  | notModelled (mnemonic : String)
  deriving DecidableEq, Repr

/-- The outcome of a command. -/
abbrev Result := Host.Outcome State Fault Refusal

end Sys2Proof.Machine
end

