-- ==== Sys2Proof/Machine/Ops.lean ====
section
/-! DEFINITION. The shared operations: the byte files (20_memory.md), the responses and the raising of a fault
(60_exceptions.md), reset (70_reset_and_hazards.md). -/

namespace Sys2Proof.Machine

/-- What an unlisted address of a byte file reads as (notes/assumptions/4.md). -/
def unlistedByte : Byte := 0

/-- The canonical form from address `lo` on: addresses strictly rising, no entry equal to `unlistedByte`. -/
def Memory.wfFrom (lo : Nat) : Memory → Bool
  | [] => true
  | (a, b) :: m => decide (lo ≤ a) && b != unlistedByte && Memory.wfFrom (a + 1) m

/-- The canonical form of a byte file. -/
def Memory.wf (m : Memory) : Bool := Memory.wfFrom 0 m

/-- One byte of a byte file. -/
def Memory.read : Memory → Nat → Byte
  | [], _ => unlistedByte
  | (a, b) :: m, i => if a = i then b else Memory.read m i

/-- Write one byte, keeping the canonical form: writing `unlistedByte` removes the entry. -/
def Memory.write : Memory → Nat → Byte → Memory
  | [], i, v => if v = unlistedByte then [] else [(i, v)]
  | (a, b) :: m, i, v =>
    if i < a then (if v = unlistedByte then (a, b) :: m else (i, v) :: (a, b) :: m)
    else if i = a then (if v = unlistedByte then m else (i, v) :: m)
    else (a, b) :: Memory.write m i v

/-- `i` is an index of the space (20_memory.md R30). -/
def inSpace (sp : Space) (i : Nat) (s : State) : Bool :=
  match sp with
  | .out => s.outMax.holds i
  | .dg => decide (i < Config.digestLen)
  | .code => decide (i < Config.digits)

/-- The byte file of a space. -/
def file (sp : Space) (s : State) : Memory :=
  match sp with
  | .out => s.b32.out
  | .dg => s.trn.dg
  | .code => s.dig.code

/-- The byte at index `i` of a space, as a number the model can name everywhere. -/
def byteAt (sp : Space) (i : Nat) (s : State) : Byte := (file sp s).read i

/-- Replace the byte file of a space. -/
def setFile (sp : Space) (m : Memory) (s : State) : State :=
  match sp with
  | .out => { s with b32 := { s.b32 with out := m } }
  | .dg => { s with trn := { s.trn with dg := m } }
  | .code => { s with dig := { s.dig with code := m } }

/-- `MemRead(S, i, 1)` (00_scope.md R9; 20_memory.md R30, R31). -/
def memRead (sp : Space) (i : Nat) (s : State) : Except Fault Byte :=
  if inSpace sp i s then .ok (byteAt sp i s) else .error (.noSuchByte sp i)

/-- `MemWrite(S, i, 1, v)` (00_scope.md R9; 20_memory.md R30, R31). -/
def memWrite (sp : Space) (i : Nat) (v : Byte) (s : State) : Except Fault State :=
  if inSpace sp i s then .ok (setFile sp ((file sp s).write i v) s) else .error (.noSuchByte sp i)

/-- Go on with what an access gives, or stop with its fault. -/
def onAccess {α : Type} (r : Except Fault α) (k : α → Result) : Result :=
  match r with
  | .ok a => k a
  | .error f => .fault f

/-- Put a response on the response channel (30_encoding.md R46). -/
def respond (fc : FaultCode) (d : Data) (s : State) : State := { s with resp := some { fc := fc, data := d } }

/-- The response as one 36-bit word, `fc ++ data` (30_encoding.md R46). -/
def responseWord (r : Response) : BitVec 36 := r.fc.code.setWidth 36 <<< 32 ||| r.data.setWidth 36

/-- `respond OK(d)` (00_scope.md R9). -/
def respondOk (d : Data) (s : State) : Result := .next (respond .ok d s)

/-- The faults a command can raise, with their information (60_exceptions.md R121). -/
inductive Raised where
  | invalidCharacter (c : Byte)
  | illegalCommand (w : CommandWord)
  | sequence
  | range
  | capacity
  deriving DecidableEq, Repr

/-- The fault code of a raised fault (60_exceptions.md R121). -/
def faultCode : Raised → FaultCode
  | .invalidCharacter _ => .invalidCharacter
  | .illegalCommand _ => .illegalCommand
  | .sequence => .sequence
  | .range => .range
  | .capacity => .capacity

/-- The response data of a raised fault (60_exceptions.md R121). -/
def faultData : Raised → Data
  | .invalidCharacter c => c.setWidth 32
  | .illegalCommand w => w.setWidth 32
  | .sequence | .range | .capacity => 0

/-- Enter `ST = FAULT` and record the cause, and nothing else (60_exceptions.md R128). -/
def recordCallFault (fc : FaultCode) (c : Byte) (s : State) : State :=
  { s with b32 := { s.b32 with st := .fault, errcode := fc.code, errchar := c } }

/-- The state a raised fault records: a call fault its three registers, a refusal nothing (60_exceptions.md R120,
R121, R128). -/
def recordFault (r : Raised) (s : State) : State :=
  match r with
  | .invalidCharacter c => recordCallFault .invalidCharacter c s
  | .capacity => recordCallFault .capacity 0 s
  | .illegalCommand _ | .sequence | .range => s

/-- `raise F(d)` (00_scope.md R9; 60_exceptions.md R128): the one way a command ends in a fault. -/
def raise (r : Raised) (s : State) : Result := .next (respond (faultCode r) (faultData r) (recordFault r s))

/-- Open a decode call: the per-call initial values of 40_b32_decode.md R65, which is also how `ST = FAULT` is left
(60_exceptions.md R129). `OUT` is not cleared. -/
def openCall (s : State) : State :=
  { s with b32 := { s.b32 with
      cur := 0, brem := 8, scnt := 0, ocnt := 0, pad := false, errcode := 0, errchar := 0, st := .run } }

/-- Every register and flag to its reset value (10_state.md R28; 43_system.md R98; notes/assumptions/5.md). -/
def resetRegisters (s : State) : State := { s with b32 := .reset, trn := .reset, dig := .reset }

/-- The hardware reset input: the registers at their reset values and no response given (70_reset_and_hazards.md
R140). -/
def hardwareReset (s : State) : State := { resetRegisters s with resp := none }

end Sys2Proof.Machine
end

