-- ==== Sys2Proof/Machine/Flags.lean ====
section
/-! DEFINITION. The flags and status fields: the unit-state conditions each command requires (60_exceptions.md R125),
the flags as the register map shows them (10_state.md R24), and their updates. -/

namespace Sys2Proof.Machine

/-- `ST` as the 2 bits of 10_state.md R16. -/
def UnitState.code : UnitState → BitVec 2
  | .idle => 0
  | .run => 1
  | .done => 2
  | .fault => 3

/-- `ST = RUN`: what B32.SYM and B32.END require (R125). -/
def callOpen (s : State) : Bool := s.b32.st == .run

/-- `ST = DONE`: what B32.RDB requires (R125). -/
def secretReadable (s : State) : Bool := s.b32.st == .done

/-- `DGN < 20`: what TRN.PUSH requires (R125). -/
def digestOpen (s : State) : Bool := decide (s.trn.dgn.toNat < Config.digestLen)

/-- `DGN = 20`: what TRN.GO requires (R125). -/
def digestLoaded (s : State) : Bool := s.trn.dgn.toNat == Config.digestLen

/-- `OCNT = OUT_MAX`: the test of 40_b32_decode.md R71. -/
def bufferFull (s : State) : Bool :=
  match s.outMax with
  | .bytes n => s.b32.ocnt == n
  | .infinite => false

/-- `PAD <- 1` (40_b32_decode.md R68). -/
def setPad (s : State) : State := { s with b32 := { s.b32 with pad := true } }

/-- `ST <- DONE` (40_b32_decode.md R72). -/
def closeCall (s : State) : State := { s with b32 := { s.b32 with st := .done } }

/-- `NUM <- 0`, `DIGV <- 0` (41_truncate.md R80, R82; 70_reset_and_hazards.md R145). -/
def invalidateCode (s : State) : State := { s with dig := { s.dig with num := 0, digv := false } }

/-- `B32_STAT`: `ST` in [1:0], `PAD` in [2] (10_state.md R24). -/
def b32Stat (s : State) : Data := (BitVec.ofBool s.b32.pad ++ s.b32.st.code).setWidth 32

/-- `B32_ERR`: `ERRCHAR` in [7:0], `ERRCODE` in [11:8] (10_state.md R24). -/
def b32Err (s : State) : Data := (s.b32.errcode ++ s.b32.errchar).setWidth 32

/-- `TRN_STAT`: `DGN` in [4:0], `BINV` in [8] (10_state.md R24). -/
def trnStat (s : State) : Data := (BitVec.ofBool s.trn.binv ++ 0#3 ++ s.trn.dgn).setWidth 32

/-- `DIG_STAT`: `DIGV` in [0] (10_state.md R24). -/
def digStat (s : State) : Data := (BitVec.ofBool s.dig.digv).setWidth 32

end Sys2Proof.Machine
end

