-- ==== Sys2Proof/Machine/Operands.lean ====
section
/-! DEFINITION. The operand forms of 30_encoding.md R47: a symbol code and a digest byte are used as they stand (a
symbol is classified by `lookup`, Machine/Alphabet.lean); an index and a register number are read here. -/

namespace Sys2Proof.Machine

/-- An index operand: `arg` zero-extended, never scaled or wrapped (R47; 20_memory.md R35). -/
def indexOperand (i : Byte) : Nat := i.toNat

/-- A register-number operand: the register's value in the layout of 10_state.md R24, or none where the number is
unassigned. `SCNT` and `OCNT` read as `trunc_16` of the counter (R24). -/
def registerOperand (n : Byte) (s : State) : Option Data :=
  match n.toNat with
  | 0x00 => some (b32Stat s)
  | 0x01 => some (s.b32.cur.setWidth 32)
  | 0x02 => some (s.b32.brem.setWidth 32)
  | 0x03 => some ((BitVec.ofNat 16 s.b32.scnt).setWidth 32)
  | 0x04 => some ((BitVec.ofNat 16 s.b32.ocnt).setWidth 32)
  | 0x05 => some (b32Err s)
  | 0x08 => some (trnStat s)
  | 0x09 => some (s.trn.off.setWidth 32)
  | 0x0A => some s.trn.bin
  | 0x10 => some (digStat s)
  | 0x11 => some (s.dig.num.setWidth 32)
  | _ => none

end Sys2Proof.Machine
end

