-- ==== Sys2Proof/Machine/B32.lean ====
section
/-! DEFINITION. The B32 unit: base32 decode (40_b32_decode.md). -/

namespace Sys2Proof.Machine

/-- `B32.START` (R65). -/
def execB32Start (s : State) : Result := respondOk 0 (openCall s)

/-- Case "fits" (R70): the value goes into the free low bits of `CUR`. -/
def acceptFits (v : SymValue) (s : State) : Result :=
  let brem := s.b32.brem.toNat
  respondOk 0 { s with b32 := { s.b32 with
    cur := s.b32.cur ||| BitVec.ofNat 8 (shiftLeft v.toNat (brem - 5)),
    brem := BitVec.ofNat 4 (brem - 5),
    scnt := s.b32.scnt + 1 } }

/-- The byte a straddling value completes (R71). -/
def completedByte (v : SymValue) (s : State) : Byte :=
  s.b32.cur ||| BitVec.ofNat 8 (shiftRight v.toNat (5 - s.b32.brem.toNat))

/-- Case "straddles" (R71): the value's high bits complete a byte of `OUT`, its low bits start the next. -/
def acceptStraddles (v : SymValue) (s : State) : Result :=
  if bufferFull s then raise .capacity s
  else
    onAccess (memWrite .out s.b32.ocnt (completedByte v s) s) fun t =>
      respondOk 0 { t with b32 := { t.b32 with
        ocnt := s.b32.ocnt + 1,
        cur := BitVec.ofNat 8 (shiftLeft v.toNat (3 + s.b32.brem.toNat)),
        brem := BitVec.ofNat 4 (s.b32.brem.toNat + 3),
        scnt := s.b32.scnt + 1 } }

/-- An alphabet value arrives (R70, R71). -/
def acceptValue (v : SymValue) (s : State) : Result :=
  if 5 < s.b32.brem.toNat then acceptFits v s else acceptStraddles v s

/-- Deliver one symbol: the checks of R66 in their order, then one of the five cases R67 to R71. -/
def deliverSymbol (sym : Byte) (s : State) : Result :=
  if !callOpen s then raise .sequence s
  else if s.b32.pad && lookup sym != .pad then raise (.invalidCharacter padCode) s
  else
    match lookup sym with
    | .pad => respondOk 0 (setPad s)
    | .none => raise (.invalidCharacter sym) s
    | .value v => acceptValue v s

/-- `B32.SYM sym` (R66). -/
def execB32Sym (sym : Byte) (s : State) : Result := deliverSymbol sym s

/-- The expected output length of D0 step 5 (R72). -/
def expectedLength (s : State) : Nat := s.b32.scnt * 5 / 8

/-- D0's final flush, kept literally (R72): it never fires in a reachable state. -/
def finalFlush (s : State) : Except Fault State :=
  if s.b32.ocnt < expectedLength s then
    match memWrite .out s.b32.ocnt s.b32.cur s with
    | .ok t => .ok { t with b32 := { t.b32 with ocnt := s.b32.ocnt + 1 } }
    | .error f => .error f
  else .ok s

/-- `B32.END` (R72). The response is the decoded length in bytes. -/
def execB32End (s : State) : Result :=
  if !callOpen s then raise .sequence s
  else onAccess (finalFlush s) fun t => respondOk (BitVec.ofNat 32 t.b32.ocnt) (closeCall t)

/-- `B32.RDB i` (R73). -/
def execB32Rdb (i : Byte) (s : State) : Result :=
  if !secretReadable s then raise .sequence s
  else if s.b32.ocnt ≤ indexOperand i then raise .range s
  else onAccess (memRead .out (indexOperand i) s) fun b => respondOk (b.setWidth 32) s

end Sys2Proof.Machine
end

