-- ==== Sys2Proof/Machine/Dig.lean ====
section
/-! DEFINITION. The DIG unit: modulus and decimal digits (42_digits.md). -/

namespace Sys2Proof.Machine

/-- `numericCode = binCode mod 1_000_000` (R90). -/
def numericCode (bin : BitVec 32) : Nat := bin.toNat % Config.modulus

/-- The decimal digit of weight `10^k` (R90). -/
def decimalDigit (num k : Nat) : Nat := num / 10 ^ k % 10

/-- The character of a decimal digit, `0x30 + d` (30_encoding.md R56). -/
def digitChar (d : Nat) : Byte := BitVec.ofNat 8 (0x30 + d)

/-- Write the characters of the digits of weight `10^0` to `10^(n-1)`, in that order, `CODE[5-k]` taking digit `k`
(R90). -/
def storeDigits (num : Nat) : Nat → State → Except Fault State
  | 0, s => .ok s
  | k + 1, s =>
    match storeDigits num k s with
    | .ok t => memWrite .code (5 - k) (digitChar (decimalDigit num k)) t
    | .error f => .error f

/-- `DIG.GO` (R90). -/
def execDigGo (s : State) : Result :=
  if !s.trn.binv then raise .sequence s
  else
    let num := numericCode s.trn.bin
    onAccess (storeDigits num Config.digits s) fun t =>
      respondOk (BitVec.ofNat 32 num) { t with dig := { t.dig with num := BitVec.ofNat 20 num, digv := true } }

/-- `DIG.RDC i` (R92). -/
def execDigRdc (i : Byte) (s : State) : Result :=
  if !s.dig.digv then raise .sequence s
  else if 5 < indexOperand i then raise .range s
  else onAccess (memRead .code (indexOperand i) s) fun b => respondOk (b.setWidth 32) s

end Sys2Proof.Machine
end

