-- ==== Sys2Proof/Machine/Sym.lean ====
section
/-! DEFINITION. The meanings of the 59 SYM8 rows: each is `B32.SYM` carrying the row's code (30_encoding.md R47, R50 to
R54, R59), over the shared operation `deliverSymbol`. -/

namespace Sys2Proof.Machine

/-- `B32.SYM 'A'`. -/
def execSymUpperA (s : State) : Result := deliverSymbol 0x41 s

/-- `B32.SYM 'B'`. -/
def execSymUpperB (s : State) : Result := deliverSymbol 0x42 s

/-- `B32.SYM 'C'`. -/
def execSymUpperC (s : State) : Result := deliverSymbol 0x43 s

/-- `B32.SYM 'D'`. -/
def execSymUpperD (s : State) : Result := deliverSymbol 0x44 s

/-- `B32.SYM 'E'`. -/
def execSymUpperE (s : State) : Result := deliverSymbol 0x45 s

/-- `B32.SYM 'F'`. -/
def execSymUpperF (s : State) : Result := deliverSymbol 0x46 s

/-- `B32.SYM 'G'`. -/
def execSymUpperG (s : State) : Result := deliverSymbol 0x47 s

/-- `B32.SYM 'H'`. -/
def execSymUpperH (s : State) : Result := deliverSymbol 0x48 s

/-- `B32.SYM 'I'`. -/
def execSymUpperI (s : State) : Result := deliverSymbol 0x49 s

/-- `B32.SYM 'J'`. -/
def execSymUpperJ (s : State) : Result := deliverSymbol 0x4A s

/-- `B32.SYM 'K'`. -/
def execSymUpperK (s : State) : Result := deliverSymbol 0x4B s

/-- `B32.SYM 'L'`. -/
def execSymUpperL (s : State) : Result := deliverSymbol 0x4C s

/-- `B32.SYM 'M'`. -/
def execSymUpperM (s : State) : Result := deliverSymbol 0x4D s

/-- `B32.SYM 'N'`. -/
def execSymUpperN (s : State) : Result := deliverSymbol 0x4E s

/-- `B32.SYM 'O'`. -/
def execSymUpperO (s : State) : Result := deliverSymbol 0x4F s

/-- `B32.SYM 'P'`. -/
def execSymUpperP (s : State) : Result := deliverSymbol 0x50 s

/-- `B32.SYM 'Q'`. -/
def execSymUpperQ (s : State) : Result := deliverSymbol 0x51 s

/-- `B32.SYM 'R'`. -/
def execSymUpperR (s : State) : Result := deliverSymbol 0x52 s

/-- `B32.SYM 'S'`. -/
def execSymUpperS (s : State) : Result := deliverSymbol 0x53 s

/-- `B32.SYM 'T'`. -/
def execSymUpperT (s : State) : Result := deliverSymbol 0x54 s

/-- `B32.SYM 'U'`. -/
def execSymUpperU (s : State) : Result := deliverSymbol 0x55 s

/-- `B32.SYM 'V'`. -/
def execSymUpperV (s : State) : Result := deliverSymbol 0x56 s

/-- `B32.SYM 'W'`. -/
def execSymUpperW (s : State) : Result := deliverSymbol 0x57 s

/-- `B32.SYM 'X'`. -/
def execSymUpperX (s : State) : Result := deliverSymbol 0x58 s

/-- `B32.SYM 'Y'`. -/
def execSymUpperY (s : State) : Result := deliverSymbol 0x59 s

/-- `B32.SYM 'Z'`. -/
def execSymUpperZ (s : State) : Result := deliverSymbol 0x5A s

/-- `B32.SYM 'a'`. -/
def execSymLowerA (s : State) : Result := deliverSymbol 0x61 s

/-- `B32.SYM 'b'`. -/
def execSymLowerB (s : State) : Result := deliverSymbol 0x62 s

/-- `B32.SYM 'c'`. -/
def execSymLowerC (s : State) : Result := deliverSymbol 0x63 s

/-- `B32.SYM 'd'`. -/
def execSymLowerD (s : State) : Result := deliverSymbol 0x64 s

/-- `B32.SYM 'e'`. -/
def execSymLowerE (s : State) : Result := deliverSymbol 0x65 s

/-- `B32.SYM 'f'`. -/
def execSymLowerF (s : State) : Result := deliverSymbol 0x66 s

/-- `B32.SYM 'g'`. -/
def execSymLowerG (s : State) : Result := deliverSymbol 0x67 s

/-- `B32.SYM 'h'`. -/
def execSymLowerH (s : State) : Result := deliverSymbol 0x68 s

/-- `B32.SYM 'i'`. -/
def execSymLowerI (s : State) : Result := deliverSymbol 0x69 s

/-- `B32.SYM 'j'`. -/
def execSymLowerJ (s : State) : Result := deliverSymbol 0x6A s

/-- `B32.SYM 'k'`. -/
def execSymLowerK (s : State) : Result := deliverSymbol 0x6B s

/-- `B32.SYM 'l'`. -/
def execSymLowerL (s : State) : Result := deliverSymbol 0x6C s

/-- `B32.SYM 'm'`. -/
def execSymLowerM (s : State) : Result := deliverSymbol 0x6D s

/-- `B32.SYM 'n'`. -/
def execSymLowerN (s : State) : Result := deliverSymbol 0x6E s

/-- `B32.SYM 'o'`. -/
def execSymLowerO (s : State) : Result := deliverSymbol 0x6F s

/-- `B32.SYM 'p'`. -/
def execSymLowerP (s : State) : Result := deliverSymbol 0x70 s

/-- `B32.SYM 'q'`. -/
def execSymLowerQ (s : State) : Result := deliverSymbol 0x71 s

/-- `B32.SYM 'r'`. -/
def execSymLowerR (s : State) : Result := deliverSymbol 0x72 s

/-- `B32.SYM 's'`. -/
def execSymLowerS (s : State) : Result := deliverSymbol 0x73 s

/-- `B32.SYM 't'`. -/
def execSymLowerT (s : State) : Result := deliverSymbol 0x74 s

/-- `B32.SYM 'u'`. -/
def execSymLowerU (s : State) : Result := deliverSymbol 0x75 s

/-- `B32.SYM 'v'`. -/
def execSymLowerV (s : State) : Result := deliverSymbol 0x76 s

/-- `B32.SYM 'w'`. -/
def execSymLowerW (s : State) : Result := deliverSymbol 0x77 s

/-- `B32.SYM 'x'`. -/
def execSymLowerX (s : State) : Result := deliverSymbol 0x78 s

/-- `B32.SYM 'y'`. -/
def execSymLowerY (s : State) : Result := deliverSymbol 0x79 s

/-- `B32.SYM 'z'`. -/
def execSymLowerZ (s : State) : Result := deliverSymbol 0x7A s

/-- `B32.SYM '2'`. -/
def execSymDigit2 (s : State) : Result := deliverSymbol 0x32 s

/-- `B32.SYM '3'`. -/
def execSymDigit3 (s : State) : Result := deliverSymbol 0x33 s

/-- `B32.SYM '4'`. -/
def execSymDigit4 (s : State) : Result := deliverSymbol 0x34 s

/-- `B32.SYM '5'`. -/
def execSymDigit5 (s : State) : Result := deliverSymbol 0x35 s

/-- `B32.SYM '6'`. -/
def execSymDigit6 (s : State) : Result := deliverSymbol 0x36 s

/-- `B32.SYM '7'`. -/
def execSymDigit7 (s : State) : Result := deliverSymbol 0x37 s

/-- `B32.SYM '='`. -/
def execSymPad (s : State) : Result := deliverSymbol 0x3D s

end Sys2Proof.Machine
end

