-- ==== Sys2Proof/Machine/System.lean ====
section
/-! DEFINITION. The system commands (43_system.md). -/

namespace Sys2Proof.Machine

/-- `RDREG n` (R97). -/
def execRdreg (n : Byte) (s : State) : Result :=
  match registerOperand n s with
  | some d => respondOk d s
  | none => raise .range s

/-- `SRESET` (R98). -/
def execSreset (s : State) : Result := respondOk 0 (resetRegisters s)

end Sys2Proof.Machine
end

