-- ==== Sys2Proof/Machine/Trn.lean ====
section
/-! DEFINITION. The TRN unit: digest load and dynamic truncation (41_truncate.md). -/

namespace Sys2Proof.Machine

/-- `TRN.CLR` (R80). `DG` and `CODE` are not physically changed. -/
def execTrnClr (s : State) : Result :=
  respondOk 0 (invalidateCode { s with trn := { s.trn with dgn := 0, off := 0, bin := 0, binv := false } })

/-- `TRN.PUSH byte` (R81). -/
def execTrnPush (byte : Byte) (s : State) : Result :=
  if !digestOpen s then raise .sequence s
  else
    onAccess (memWrite .dg s.trn.dgn.toNat byte s) fun t =>
      respondOk 0 { t with trn := { t.trn with dgn := s.trn.dgn + 1 } }

/-- The low 4 bits of the last digest byte (R82). -/
def truncationOffset (last : Byte) : BitVec 4 := last.setWidth 4

/-- Four bytes big-endian, the top bit of the first masked to 0 (R82; 20_memory.md R33). -/
def truncatedWord (b0 b1 b2 b3 : Byte) : BitVec 32 :=
  (b0 &&& 0x7F).setWidth 32 <<< 24 ||| b1.setWidth 32 <<< 16 ||| b2.setWidth 32 <<< 8 ||| b3.setWidth 32

/-- `TRN.GO` (R82). -/
def execTrnGo (s : State) : Result :=
  if !digestLoaded s then raise .sequence s
  else
    onAccess (memRead .dg 19 s) fun last =>
    let off := truncationOffset last
    onAccess (memRead .dg off.toNat s) fun b0 =>
    onAccess (memRead .dg (off.toNat + 1) s) fun b1 =>
    onAccess (memRead .dg (off.toNat + 2) s) fun b2 =>
    onAccess (memRead .dg (off.toNat + 3) s) fun b3 =>
    let bin := truncatedWord b0 b1 b2 b3
    respondOk bin (invalidateCode { s with trn := { s.trn with off := off, bin := bin, binv := true } })

end Sys2Proof.Machine
end

