-- ==== Sys2Proof/Machine/Command.lean ====
section
/-! DEFINITION. Taking a command word from the command port: decode it, then execute it or answer IllegalCommand
(30_encoding.md R49; 60_exceptions.md R124, R127). -/

namespace Sys2Proof.Machine

/-- Execute one command word. An illegal word is refused before and regardless of any state (R124). -/
def executeWord (w : CommandWord) (s : State) : Result :=
  match decode w with
  | .ok i => exec i s
  | .error _ => raise (.illegalCommand w) s

/-- Take one input: a command word, or an assertion of the reset input (70_reset_and_hazards.md R140). -/
def takeInput (x : Input) (s : State) : Result :=
  match x with
  | .command w => executeWord w s
  | .reset => .next (hardwareReset s)

/-- Place a command word where the next step takes its command: at the head of the inputs, in the place of the one
that stood there. -/
def placeCommand (w : CommandWord) (s : State) : State := { s with inputs := .command w :: s.inputs.tail }

end Sys2Proof.Machine
end

