-- ==== Sys2Proof/Machine/Step.lean ====
section
/-! DEFINITION. One step of the machine: take the next input, if there is one (00_scope.md R7; 20_memory.md R39). -/

namespace Sys2Proof.Machine

/-- One step. The block starts nothing on its own: with no input it stays as it is (00_scope.md R7). -/
def step (s : State) : Host.Outcome State Fault Refusal :=
  match s.inputs with
  | [] => .next s
  | x :: rest => takeInput x { s with inputs := rest }

/-- The state with the instruction of an opcode-table row placed where `step` takes its next command. -/
def State.withFetchWord (s : State) (nbits w : Nat) : State := placeCommand (tableCommandWord nbits w) s

end Sys2Proof.Machine
end

