-- ==== Sys2Proof/Machine/HostFlow.lean ====
section
/-! DEFINITION. The host around the block (44_host_contract.md): the pseudo-instructions (30_encoding.md R58), a driver
that issues one command at a time and reads its response, the time arithmetic, and D0's `generate`. The keyed hash
`HMAC_SHA1` and `ROUND_TIE` are arguments (92_eei_decisions.md D21, D23). -/

namespace Sys2Proof.Machine

/-- Why the host flow ends without a result. -/
inductive HostFailure where
  /-- D0's one error (R114): the offending character. A character above 0xFF is reported by the host itself
  (93_implementation_defined.md U10). -/
  | invalidCharacter (c : Nat)
  /-- Another fault of the block; a host with a large enough `OUT_MAX` never sees one (R114). -/
  | blockFault (r : Response)
  /-- The step gave no response: the machine stopped, which no reachable state does (R147). -/
  | unanswered
  /-- The decoded secret is longer than the 8-bit index of `B32.RDB` reaches (92_eei_decisions.md D6). -/
  | unreadableLength
  /-- `unixNow < 0` or `timeStep >= 2^64`: outside the contract (92_eei_decisions.md D22). -/
  | timeOutOfRange
  deriving DecidableEq, Repr

/-- Issue one command and wait for its response (20_memory.md R39); go on only on `OK`. -/
def issue (w : CommandWord) (s : State) : Except HostFailure (Data × State) :=
  match step { s with inputs := [.command w] } with
  | .next t =>
    match t.resp with
    | some r =>
      match r.fc with
      | .ok => .ok (r.data, t)
      | .invalidCharacter => .error (.invalidCharacter r.data.toNat)
      | .illegalCommand | .sequence | .range | .capacity => .error (.blockFault r)
    | none => .error .unanswered
  | .fault _ => .error .unanswered
  | .refused _ => .error .unanswered

/-- Issue commands in order, stopping at the first response that is not `OK` (30_encoding.md R58). -/
def issueAll : List CommandWord → State → Except HostFailure (List Data × State)
  | [], s => .ok ([], s)
  | w :: ws, s =>
    match issue w s with
    | .error f => .error f
    | .ok (d, t) =>
      match issueAll ws t with
      | .error f => .error f
      | .ok (ds, u) => .ok (d :: ds, u)

/-- `B32.DECODE "s"` (30_encoding.md R58). -/
def decodeCommands (s : List Byte) : List CommandWord :=
  0x1000 :: s.map (fun c => commandWord 0x11 c) ++ [0x1200]

/-- `B32.READ` for a decoded length (30_encoding.md R58). -/
def readCommands (len : Nat) : List CommandWord :=
  (List.range len).map fun i => commandWord 0x13 (BitVec.ofNat 8 i)

/-- `TRN.LOAD h` (30_encoding.md R58). -/
def loadCommands (digest : List Byte) : List CommandWord :=
  0x2000 :: digest.map fun b => commandWord 0x21 b

/-- `OTP.CODE` (30_encoding.md R58). -/
def codeCommands : List CommandWord := [0x2200, 0x3000, 0x3100, 0x3101, 0x3102, 0x3103, 0x3104, 0x3105]

/-- A host string up to its first character that does not fit in the 8-bit symbol port, and that character, if there
is one (93_implementation_defined.md U10). -/
def portSymbols : List Nat → List Byte × Option Nat
  | [] => ([], none)
  | c :: cs => if 0xFF < c then ([], some c) else (BitVec.ofNat 8 c :: (portSymbols cs).1, (portSymbols cs).2)

/-- `unixNow` (R103): seconds rounded to the nearest, a tie by `ROUND_TIE`. An instant may lie before 1970; the
contract's precondition is on the rounded seconds (R104; 92_eei_decisions.md D22). -/
def unixNow (tie : Config.RoundTie) (now : Rat) : Int :=
  let n := now.floor
  let f := now - n
  if f < 1 / 2 then n
  else if 1 / 2 < f then n + 1
  else
    match tie with
    | .halfUp => n + 1
    | .halfEven => if n % 2 = 0 then n else n + 1

/-- `timeStep = unixNow div 30` (R104), a natural number because the contract requires `unixNow >= 0`. -/
def timeStep (tie : Config.RoundTie) (now : Rat) : Nat := (unixNow tie now).toNat / Config.stepSeconds

/-- The moving factor: 8 bytes, big-endian (R105). -/
def movingFactor (step : Nat) : List Byte :=
  (List.range Config.counterBytes).map fun i => BitVec.ofNat 8 (step / 256 ^ (7 - i))

/-- The seconds field of the UTC time of an instant (R109). -/
def secondOfMinute (t : Rat) : Int := t.floor % 60

/-- `candidateExpiry` before the adjustment (R109). -/
def candidateExpiry (tie : Config.RoundTie) (now : Rat) : Rat :=
  now + ((Config.stepSeconds - unixNow tie now % Config.stepSeconds : Int) : Rat)

/-- `expiryUtc` (R109): the exact conditional of D0, then the millisecond part replaced by 999 ms. -/
def expiryUtc (tie : Config.RoundTie) (now : Rat) : Rat :=
  let c := candidateExpiry tie now
  let adjusted := if secondOfMinute c % 30 = 0 then c - 1 else c
  (adjusted.floor : Rat) + 999 / 1000

/-- D0's result object (R108): an immutable value. -/
structure TotpResult where
  code : List Byte
  expiry : Rat
  deriving DecidableEq, Repr

/-- `isExpired(result, now)` (R111): strict. -/
def isExpired (r : TotpResult) (now : Rat) : Bool := decide (r.expiry < now)

/-- Decode a secret and read its bytes out (R102 step 1). -/
def decodeSecret (secret : List Byte) (s : State) : Except HostFailure (List Byte × State) :=
  match issueAll (decodeCommands secret) s with
  | .error f => .error f
  | .ok (responses, t) =>
    let len := (responses.getLastD 0).toNat
    if 256 < len then .error .unreadableLength
    else
      match issueAll (readCommands len) t with
      | .error f => .error f
      | .ok (bytes, u) => .ok (bytes.map fun d => d.setWidth 8, u)

/-- Load a digest, truncate it and read the six characters (R102 steps 6 and 7; R107). -/
def codeOfDigest (digest : List Byte) (s : State) : Except HostFailure (List Byte × State) :=
  match issueAll (loadCommands digest ++ codeCommands) s with
  | .error f => .error f
  | .ok (responses, t) => .ok ((responses.drop (digest.length + 3)).map fun d => d.setWidth 8, t)

/-- The offending character of a string whose symbols up to the wide character `c` are accepted: a padding character
right before `c` is not trailing and comes first, else `c` itself (40_b32_decode.md R67; U10). -/
def wideOffender (symbols : List Byte) (c : Nat) : Nat :=
  if symbols.getLast? = some padCode then padCode.toNat else c

/-- `generate(secretBase32, now)` (R102): the block decodes, truncates and formats; the host does the rest. A
character that does not fit the port fails the attempt when the symbols before it have been accepted (R114;
notes/assumptions/14.md). -/
def generate (hmac : List Byte → List Byte → List Byte) (tie : Config.RoundTie) (secret : List Nat) (now : Rat)
    (s : State) : Except HostFailure (TotpResult × State) :=
  if unixNow tie now < 0 ∨ 2 ^ 64 ≤ timeStep tie now then .error .timeOutOfRange
  else
    match portSymbols secret with
    | (symbols, some c) =>
      match issueAll (0x1000 :: symbols.map fun b => commandWord 0x11 b) s with
      | .error f => .error f
      | .ok _ => .error (.invalidCharacter (wideOffender symbols c))
    | (symbols, none) =>
      match decodeSecret symbols s with
      | .error f => .error f
      | .ok (key, t) =>
        match codeOfDigest (hmac key (movingFactor (timeStep tie now))) t with
        | .error f => .error f
        | .ok (code, u) => .ok ({ code := code, expiry := expiryUtc tie now }, u)

end Sys2Proof.Machine
end

