-- ==== Sys2Proof/Machine/Reference.lean ====
section
/-! DEFINITION. D0's whole-string decode, `decode(input: string) -> bytes`, in the clear form of 20_memory.md R32 and
40_b32_decode.md R75: trim the trailing `=`, map each symbol to its 5 bits, regroup the bit string into bytes. The
streamed commands of the B32 unit are stated equal to it. Beside it, the bit string of a base32 encoding (R79). -/

namespace Sys2Proof.Machine

/-- `s` with its maximal suffix of `=` removed (R75). -/
def trimPadding (s : List Byte) : List Byte := (s.reverse.dropWhile fun c => c == padCode).reverse

/-- The alphabet values of a string, or the first symbol that has none (R75). -/
def symbolValues : List Byte → Except Byte (List SymValue)
  | [] => .ok []
  | c :: cs =>
    match lookup c with
    | .value v => (symbolValues cs).map fun vs => v :: vs
    | .pad | .none => .error c

/-- The 5 bits of an alphabet value, most significant first (R32). -/
def valueBits (v : SymValue) : List Bool := [v.getLsbD 4, v.getLsbD 3, v.getLsbD 2, v.getLsbD 1, v.getLsbD 0]

/-- The 8 bits of a byte, most significant first. -/
def byteBits (b : Byte) : List Bool :=
  [b.getLsbD 7, b.getLsbD 6, b.getLsbD 5, b.getLsbD 4, b.getLsbD 3, b.getLsbD 2, b.getLsbD 1, b.getLsbD 0]

/-- The number a bit string writes, most significant bit first. -/
def numberOfBits (bits : List Bool) : Nat := bits.foldl (fun n b => 2 * n + b.toNat) 0

/-- Regroup a bit string into whole bytes; the bits that do not complete a byte are discarded (R32, R74). -/
def bytesOfBits : List Bool → List Byte
  | b7 :: b6 :: b5 :: b4 :: b3 :: b2 :: b1 :: b0 :: rest =>
    BitVec.ofNat 8 (numberOfBits [b7, b6, b5, b4, b3, b2, b1, b0]) :: bytesOfBits rest
  | _ => []

/-- D0's `decode(s)`: the bytes, or the offending character (R75). -/
def wholeDecode (s : List Byte) : Except Byte (List Byte) :=
  (symbolValues (trimPadding s)).map fun vs => bytesOfBits (vs.flatMap valueBits)

/-- Cut a bit string into 5-bit values, padding the last one with zero bits at its least significant end (R79). -/
def valuesOfBits : List Bool → List SymValue
  | [] => []
  | [b4] => [BitVec.ofNat 5 (numberOfBits [b4, false, false, false, false])]
  | [b4, b3] => [BitVec.ofNat 5 (numberOfBits [b4, b3, false, false, false])]
  | [b4, b3, b2] => [BitVec.ofNat 5 (numberOfBits [b4, b3, b2, false, false])]
  | [b4, b3, b2, b1] => [BitVec.ofNat 5 (numberOfBits [b4, b3, b2, b1, false])]
  | b4 :: b3 :: b2 :: b1 :: b0 :: rest => BitVec.ofNat 5 (numberOfBits [b4, b3, b2, b1, b0]) :: valuesOfBits rest

/-- The alphabet values a base32 encoder writes for a byte string (R79). -/
def encodedValues (bytes : List Byte) : List SymValue := valuesOfBits (bytes.flatMap byteBits)

end Sys2Proof.Machine
end

