-- ==== Sys2Proof/Safety.lean ====
section
/-! DEFINITION. The terms claims are stated in: the invariants of 10_state.md R27, what a host can observe of a state
(93_implementation_defined.md U1, U5), the register map and the tables of the spec as numbers, and the frames. -/

namespace Sys2Proof.Machine

/-- The invariants of 10_state.md R27, with the byte files in canonical form inside their spaces, `OUT_MAX` in its
range (00_scope.md R6) and no stale result (70_reset_and_hazards.md R145). -/
structure Inv (s : State) : Prop where
  capacityInRange : s.outMax.wf = true
  outCanonical : Memory.wf s.b32.out = true
  dgCanonical : Memory.wf s.trn.dg = true
  codeCanonical : Memory.wf s.dig.code = true
  outInSpace : ∀ c ∈ s.b32.out, inSpace .out c.1 s = true
  dgInSpace : ∀ c ∈ s.trn.dg, inSpace .dg c.1 s = true
  codeInSpace : ∀ c ∈ s.dig.code, inSpace .code c.1 s = true
  /-- R27 item 1. -/
  bremRange : 1 ≤ s.b32.brem.toNat ∧ s.b32.brem.toNat ≤ 8
  /-- R27 item 2. -/
  bremCounts : s.b32.st ≠ .idle → s.b32.brem.toNat = 8 - (5 * s.b32.scnt) % 8
  /-- R27 item 3. -/
  ocntCounts : s.b32.st ≠ .idle → s.b32.ocnt = 5 * s.b32.scnt / 8
  /-- R27 item 4. -/
  curLowBitsFree : s.b32.cur.toNat % 2 ^ s.b32.brem.toNat = 0
  /-- R27 item 5. -/
  ocntFits : s.outMax.fits s.b32.ocnt = true
  /-- R27 item 6. -/
  faultRecorded : s.b32.st = .fault ↔ s.b32.errcode ≠ 0
  errcharRecorded : s.b32.errchar ≠ 0 → s.b32.errcode = 1
  /-- R17: "no other value is ever written". -/
  errcodeValues : s.b32.errcode = 0 ∨ s.b32.errcode = 1 ∨ s.b32.errcode = 5
  /-- R27 item 7. -/
  idleClean : s.b32.st = .idle → s.b32.cur = 0 ∧ s.b32.brem = 8 ∧ s.b32.scnt = 0 ∧ s.b32.ocnt = 0 ∧
    s.b32.pad = false ∧ s.b32.errcode = 0 ∧ s.b32.errchar = 0
  /-- R19. -/
  dgnRange : s.trn.dgn.toNat ≤ Config.digestLen
  /-- R27 item 8. -/
  binvLoaded : s.trn.binv = true → s.trn.dgn.toNat = Config.digestLen
  digvValid : s.dig.digv = true → s.trn.binv = true
  /-- R27 item 9. -/
  binRange : s.trn.bin.toNat < 2 ^ 31
  binClear : s.trn.binv = false → s.trn.bin = 0 ∧ s.trn.off = 0
  /-- R21, R145: `BIN` and `OFF` belong to the 20 bytes now in `DG`. -/
  binOfDigest : s.trn.binv = true →
    s.trn.off.toNat = (byteAt .dg 19 s).toNat % 16 ∧
    s.trn.bin.toNat = (byteAt .dg s.trn.off.toNat s).toNat % 128 * 2 ^ 24 +
      (byteAt .dg (s.trn.off.toNat + 1) s).toNat * 2 ^ 16 +
      (byteAt .dg (s.trn.off.toNat + 2) s).toNat * 2 ^ 8 + (byteAt .dg (s.trn.off.toNat + 3) s).toNat
  /-- R27 item 10. -/
  numRange : s.dig.num.toNat ≤ 999999
  numClear : s.dig.digv = false → s.dig.num = 0
  numOfBin : s.dig.digv = true → s.dig.num.toNat = s.trn.bin.toNat % 1000000
  codeOfNum : s.dig.digv = true → ∀ k, k < 6 →
    (byteAt .code (5 - k) s).toNat = 0x30 + s.dig.num.toNat / 10 ^ k % 10

/-- Two states a host cannot tell apart: they differ at most in bytes of `OUT`, `DG` and `CODE` that no command can
read (93_implementation_defined.md U1, U5). -/
structure SameObservable (s s' : State) : Prop where
  b32Registers : { s.b32 with out := [] } = { s'.b32 with out := [] }
  trnRegisters : { s.trn with dg := [] } = { s'.trn with dg := [] }
  digRegisters : { s.dig with code := [] } = { s'.dig with code := [] }
  outBytes : ∀ j, j < s.b32.ocnt → byteAt .out j s = byteAt .out j s'
  dgBytes : ∀ k, k < s.trn.dgn.toNat → byteAt .dg k s = byteAt .dg k s'
  codeBytes : s.dig.digv = true → ∀ i, i < 6 → byteAt .code i s = byteAt .code i s'
  outMax : s.outMax = s'.outMax
  inputs : s.inputs = s'.inputs
  resp : s.resp = s'.resp

/-- Every register and flag has its reset value (10_state.md R28); the byte files are unspecified there. -/
def AtResetValues (s : State) : Prop :=
  s.b32.cur = 0 ∧ s.b32.brem = 8 ∧ s.b32.scnt = 0 ∧ s.b32.ocnt = 0 ∧ s.b32.pad = false ∧ s.b32.st = .idle ∧
  s.b32.errcode = 0 ∧ s.b32.errchar = 0 ∧ s.trn.dgn = 0 ∧ s.trn.off = 0 ∧ s.trn.bin = 0 ∧ s.trn.binv = false ∧
  s.dig.num = 0 ∧ s.dig.digv = false

/-- What every command leaves alone: the parameter and the inputs not yet taken. -/
def SamePorts (s t : State) : Prop := t.outMax = s.outMax ∧ t.inputs = s.inputs

/-- Nothing outside the B32 unit and the response changed. -/
def OnlyB32Changed (s t : State) : Prop := t.trn = s.trn ∧ t.dig = s.dig ∧ SamePorts s t

/-- Nothing outside the TRN and DIG units and the response changed. -/
def OnlyCodeUnitsChanged (s t : State) : Prop := t.b32 = s.b32 ∧ SamePorts s t

/-- The state after a command that changed nothing but the response. -/
def answered (s : State) (fc : FaultCode) (d : Data) : State := { s with resp := some { fc := fc, data := d } }

/-- The registers of 10_state.md R24 as numbers: each field times the weight of its lowest bit. -/
def registerValue (n : Nat) (s : State) : Option Nat :=
  match n with
  | 0x00 => some ((match s.b32.st with | .idle => 0 | .run => 1 | .done => 2 | .fault => 3) + 4 * s.b32.pad.toNat)
  | 0x01 => some s.b32.cur.toNat
  | 0x02 => some s.b32.brem.toNat
  | 0x03 => some (s.b32.scnt % 2 ^ 16)
  | 0x04 => some (s.b32.ocnt % 2 ^ 16)
  | 0x05 => some (s.b32.errchar.toNat + 2 ^ 8 * s.b32.errcode.toNat)
  | 0x08 => some (s.trn.dgn.toNat + 2 ^ 8 * s.trn.binv.toNat)
  | 0x09 => some s.trn.off.toNat
  | 0x0A => some s.trn.bin.toNat
  | 0x10 => some s.dig.digv.toNat
  | 0x11 => some s.dig.num.toNat
  | _ => none

/-- The operation code of an instruction (30_encoding.md R48). -/
def opOf (i : Instr) : Nat := (opField (encode i)).toNat

/-- The unit an operation code names by its high nibble: 0 system, 1 B32, 2 TRN, 3 DIG (30_encoding.md R48). -/
def unitOf (i : Instr) : Nat := opOf i / 16

/-- When a command is not refused with `Sequence`: the table of 60_exceptions.md R125, by operation code. -/
def acceptedWhen (i : Instr) (s : State) : Prop :=
  match opOf i with
  | 0x11 => s.b32.st = .run
  | 0x12 => s.b32.st = .run
  | 0x13 => s.b32.st = .done
  | 0x21 => s.trn.dgn.toNat < 20
  | 0x22 => s.trn.dgn.toNat = 20
  | 0x30 => s.trn.binv = true
  | 0x31 => s.dig.digv = true
  | _ => True

/-- `w` is the one command word that decodes to `i`. -/
def IsWordOf (i : Instr) (w : CommandWord) : Prop := ∀ v : CommandWord, decode v = .ok i ↔ v = w

/-- A word no row of the opcode map matches, in the words of 30_encoding.md R49. -/
def IllegalWord (w : CommandWord) : Prop :=
  (w.toNat / 256 ∉ [0x01, 0x02, 0x10, 0x11, 0x12, 0x13, 0x20, 0x21, 0x22, 0x30, 0x31]) ∨
  (w.toNat / 256 ∈ [0x02, 0x10, 0x12, 0x20, 0x22, 0x30] ∧ w.toNat % 256 ≠ 0)

/-- `now` is inside the contract of the host flow: `unixNow >= 0` and `timeStep < 2^64` (92_eei_decisions.md D22);
`generate` refuses every other instant (93_implementation_defined.md U6). -/
def InContract (tie : Config.RoundTie) (now : Rat) : Prop := 0 ≤ unixNow tie now ∧ timeStep tie now < 2 ^ 64

/-- The truncation of a 20-byte digest as a number (41_truncate.md R82). -/
def digestNumber (digest : List Byte) : Nat :=
  let byte := fun k => (digest.getD k 0).toNat
  let off := byte 19 % 16
  byte off % 128 * 2 ^ 24 + byte (off + 1) * 2 ^ 16 + byte (off + 2) * 2 ^ 8 + byte (off + 3)

/-- The six characters of a number below 1000000, leftmost first (42_digits.md R91). -/
def sixDigits (n : Nat) : List Byte :=
  [100000, 10000, 1000, 100, 10, 1].map fun weight => BitVec.ofNat 8 (0x30 + n / weight % 10)

end Sys2Proof.Machine
end

