-- ==== Sys2Proof/Certificates/Slice0/Obligations.lean ====
section
/-! DEFINITION. The statements for the provers. Where a statement speaks of `B32.SYM` it does so through
`symbolOf i = some c`: that is the constructor `b32Sym c` and every one of the 59 constructors of the SYM8 rows. -/

open Sys2Proof Sys2Proof.Machine Sys2Proof.Config

-- # Encoding

/-- Words written out from 30_encoding.md R48, R57 and the SYM8 codes of R53, R54. -/
def Obligations.SpecWordsDecode : Prop :=
  decode 0x010A = .ok (.rdreg 0x0A) ∧ decode 0x0200 = .ok .sreset ∧ decode 0x1000 = .ok .b32Start ∧
  decode 0x1131 = .ok (.b32Sym 0x31) ∧ decode 0x114D = .ok .symUpperM ∧ decode 0x1179 = .ok .symLowerY ∧
  decode 0x1137 = .ok .symDigit7 ∧ decode 0x113D = .ok .symPad ∧ decode 0x1200 = .ok .b32End ∧
  decode 0x1303 = .ok (.b32Rdb 3) ∧ decode 0x2000 = .ok .trnClr ∧ decode 0x215A = .ok (.trnPush 0x5A) ∧
  decode 0x2200 = .ok .trnGo ∧ decode 0x3000 = .ok .digGo ∧ decode 0x3105 = .ok (.digRdc 5) ∧
  decode 0x0000 = .error .unassignedOp ∧ decode 0x1001 = .error .operandNotZero

/-- Decoding the word of a well-formed instruction gives it back, with every operand at every value. -/
def Obligations.DecodeOfEncode : Prop := ∀ i : Instr, i.wf = true → decode (encode i) = .ok i

/-- Every word that decodes is the word of the one well-formed instruction it decodes to. -/
def Obligations.EncodeOfDecode : Prop :=
  ∀ (w : CommandWord) (i : Instr), decode w = .ok i → i.wf = true ∧ encode i = w

/-- 30_encoding.md R49, 60_exceptions.md R124: a word is illegal exactly as R49 lists, and it answers IllegalCommand
with the word as data and no other change, whatever the state. -/
def Obligations.IllegalWordsAreRefused : Prop :=
  ∀ w : CommandWord,
    (IllegalWord w → ∀ (s : State) (rest : List Input), s.inputs = .command w :: rest →
      step s = .next { s with inputs := rest, resp := some { fc := .illegalCommand, data := w.setWidth 32 } }) ∧
    (¬ IllegalWord w → ∃ i, decode w = .ok i)

/-- A step with a command word that decodes runs exactly the instruction, after taking the word from the port. -/
def Obligations.StepRunsDecodedCommand : Prop :=
  ∀ (s : State) (w : CommandWord) (i : Instr) (rest : List Input),
    s.inputs = .command w :: rest → decode w = .ok i → step s = exec i { s with inputs := rest }

/-- Every word 0x11cc decodes to an instruction that means `B32.SYM` with operand `cc`, and every instruction of a
SYM8 row means `B32.SYM` with the row's code (30_encoding.md R47, R48, R59). -/
def Obligations.SymbolRowsMeanSymbolCommand : Prop :=
  (∀ c : Byte, ∃ i, decode (BitVec.ofNat 16 (0x1100 + c.toNat)) = .ok i ∧ symbolOf i = some c) ∧
  (∀ (i : Instr) (c : Byte), symbolOf i = some c → ∀ s : State, exec i s = exec (.b32Sym c) s)

/-- 30_encoding.md R53, R54: the table of alphabet codes and values, both ways, and the padding code. -/
def Obligations.AlphabetTable : Prop :=
  (∀ (c : Byte) (v : SymValue), lookup c = .value v ↔
    (v.toNat < 26 ∧ (c.toNat = 0x41 + v.toNat ∨ c.toNat = 0x61 + v.toNat)) ∨
    (26 ≤ v.toNat ∧ c.toNat = 0x32 + (v.toNat - 26))) ∧
  ∀ c : Byte, lookup c = .pad ↔ c.toNat = 0x3D

/-- 30_encoding.md R55: the 197 codes of class NONE, by their ranges, and the count check. -/
def Obligations.InvalidSymbolCodes : Prop :=
  (∀ c : Byte, lookup c = .none ↔
    c.toNat ≤ 0x31 ∨ (0x38 ≤ c.toNat ∧ c.toNat ≤ 0x3C) ∨ (0x3E ≤ c.toNat ∧ c.toNat ≤ 0x40) ∨
    (0x5B ≤ c.toNat ∧ c.toNat ≤ 0x60) ∨ 0x7B ≤ c.toNat) ∧
  ((List.range 256).filter fun n => lookup (BitVec.ofNat 8 n) == .none).length = 197 ∧
  (∀ (c : Byte) (s : State), lookup c = .none → s.b32.st = .run → s.b32.pad = false →
    ∃ t, exec (.b32Sym c) s = .next t ∧ t.resp = some { fc := .invalidCharacter, data := c.setWidth 32 })

/-- 30_encoding.md R52, 40_b32_decode.md R76: a lower-case letter has every effect of its upper-case twin. -/
def Obligations.LettersAreCaseInsensitive : Prop :=
  ∀ c : Byte, 0x41 ≤ c.toNat → c.toNat ≤ 0x5A →
    lookup c = .value (BitVec.ofNat 5 (c.toNat - 0x41)) ∧
    lookup (c + 0x20) = .value (BitVec.ofNat 5 (c.toNat - 0x41)) ∧
    ∀ (i j : Instr) (s : State), symbolOf i = some c → symbolOf j = some (c + 0x20) → exec i s = exec j s

-- # Reset and the ports

/-- 10_state.md R28, 43_system.md R98: after hardware reset and after SRESET every piece of state has its reset value. -/
def Obligations.ResetValuesAfterReset : Prop :=
  IsWordOf .sreset 0x0200 ∧ AtResetValues State.reset ∧
  (∀ (s : State) (rest : List Input), s.inputs = .reset :: rest → ∃ t, step s = .next t ∧ AtResetValues t) ∧
  (∀ s : State, ∃ t, exec .sreset s = .next t ∧ AtResetValues t ∧ t.resp = some { fc := .ok, data := 0 } ∧
    SamePorts s t)

/-- The model's ports around hardware reset (notes/assumptions/1.md, 2.md, 6.md, 7.md): the assertion is taken from the
inputs, no response is given (70_reset_and_hazards.md R140), and OUT_MAX stays. -/
def Obligations.HardwareResetGivesNoResponse : Prop :=
  ∀ (s : State) (rest : List Input), s.inputs = .reset :: rest →
    ∃ t, step s = .next t ∧ t.resp = none ∧ t.outMax = s.outMax ∧ t.inputs = rest

/-- The block starts nothing on its own (00_scope.md R7); that an idle step is a step of the model is the model's
choice (notes/assumptions/1.md). -/
def Obligations.IdleBlockStaysAsItIs : Prop := ∀ s : State, s.inputs = [] → step s = .next s

/-- 30_encoding.md R46: a response as one 36-bit number, `fc` in bits [35:32]; 60_exceptions.md R121: the six values of
`fc`, and no other. -/
def Obligations.ResponseWordLayout : Prop :=
  (∀ r : Response, (responseWord r).toNat = 2 ^ 32 * r.fc.code.toNat + r.data.toNat) ∧
  FaultCode.ok.code.toNat = 0 ∧ FaultCode.invalidCharacter.code.toNat = 1 ∧
  FaultCode.illegalCommand.code.toNat = 2 ∧ FaultCode.sequence.code.toNat = 3 ∧ FaultCode.range.code.toNat = 4 ∧
  FaultCode.capacity.code.toNat = 5 ∧ ∀ fc : FaultCode, fc.code.toNat ≤ 5

-- # System

/-- 43_system.md R97 with the layout of 10_state.md R24: all 256 register numbers. -/
def Obligations.RdregReadsTheRegisterMap : Prop :=
  (∀ n : Byte, IsWordOf (.rdreg n) (BitVec.ofNat 16 (0x0100 + n.toNat))) ∧
  ∀ (n : Byte) (s : State), exec (.rdreg n) s = .next (match registerValue n.toNat s with
    | some v => answered s .ok (BitVec.ofNat 32 v)
    | none => answered s .range 0)

-- # B32

/-- 40_b32_decode.md R65: B32.START in every state. -/
def Obligations.StartOpensADecodeCall : Prop :=
  IsWordOf .b32Start 0x1000 ∧
  ∀ s : State, ∃ t, exec .b32Start s = .next t ∧
    t.b32.cur = 0 ∧ t.b32.brem = 8 ∧ t.b32.scnt = 0 ∧ t.b32.ocnt = 0 ∧ t.b32.pad = false ∧
    t.b32.errcode = 0 ∧ t.b32.errchar = 0 ∧ t.b32.st = .run ∧ t.resp = some { fc := .ok, data := 0 } ∧
    (∀ j, byteAt .out j t = byteAt .out j s) ∧ OnlyB32Changed s t

/-- 40_b32_decode.md R66: outside RUN a symbol is refused before it is looked at. -/
def Obligations.SymbolOutsideRunIsRefused : Prop :=
  ∀ (i : Instr) (c : Byte) (s : State), symbolOf i = some c → s.b32.st ≠ .run →
    exec i s = .next (answered s .sequence 0)

/-- 40_b32_decode.md R67: something after padding. The spec marks the reported character as its own inference: "[derived:
from D0's order of processing]". -/
def Obligations.SymbolAfterPaddingFaults : Prop :=
  ∀ (i : Instr) (c : Byte) (s : State), symbolOf i = some c → s.b32.st = .run → s.b32.pad = true → c ≠ 0x3D →
    exec i s = .next { s with
      b32 := { s.b32 with errcode := 1, errchar := 0x3D, st := .fault },
      resp := some { fc := .invalidCharacter, data := 0x3D } }

/-- 40_b32_decode.md R68: padding, whether or not some has been seen. -/
def Obligations.PaddingIsAccepted : Prop :=
  ∀ (i : Instr) (s : State), symbolOf i = some 0x3D → s.b32.st = .run →
    exec i s = .next { s with b32 := { s.b32 with pad := true }, resp := some { fc := .ok, data := 0 } }

/-- 40_b32_decode.md R69: a symbol outside the alphabet. -/
def Obligations.InvalidSymbolFaults : Prop :=
  ∀ (i : Instr) (c : Byte) (s : State), symbolOf i = some c → s.b32.st = .run → s.b32.pad = false →
    lookup c = .none →
    exec i s = .next { s with
      b32 := { s.b32 with errcode := 1, errchar := c, st := .fault },
      resp := some { fc := .invalidCharacter, data := c.setWidth 32 } }

/-- 40_b32_decode.md R70: the value fits in the current byte. -/
def Obligations.FittingValueIsPacked : Prop :=
  ∀ (i : Instr) (c : Byte) (v : SymValue) (s : State), symbolOf i = some c → lookup c = .value v →
    s.b32.st = .run → s.b32.pad = false → 5 < s.b32.brem.toNat →
    ∃ t, exec i s = .next t ∧
      t.b32.cur.toNat = s.b32.cur.toNat ||| v.toNat * 2 ^ (s.b32.brem.toNat - 5) % 2 ^ 8 ∧
      t.b32.brem.toNat = s.b32.brem.toNat - 5 ∧ t.b32.scnt = s.b32.scnt + 1 ∧
      t.resp = some { fc := .ok, data := 0 } ∧
      t.b32.ocnt = s.b32.ocnt ∧ t.b32.pad = s.b32.pad ∧ t.b32.st = s.b32.st ∧ t.b32.errcode = s.b32.errcode ∧
      t.b32.errchar = s.b32.errchar ∧ (∀ j, byteAt .out j t = byteAt .out j s) ∧ OnlyB32Changed s t

/-- 40_b32_decode.md R71: the value straddles two bytes; with no room for the completed byte, Capacity. -/
def Obligations.StraddlingValueIsPacked : Prop :=
  ∀ (i : Instr) (c : Byte) (v : SymValue) (s : State), symbolOf i = some c → lookup c = .value v →
    s.b32.st = .run → s.b32.pad = false → s.b32.brem.toNat ≤ 5 →
    (s.outMax.holds s.b32.ocnt = true →
      ∃ t, exec i s = .next t ∧
        (Memory.wf s.b32.out = true → (byteAt .out s.b32.ocnt t).toNat =
          s.b32.cur.toNat ||| v.toNat / 2 ^ (5 - s.b32.brem.toNat)) ∧
        (∀ j, j ≠ s.b32.ocnt → byteAt .out j t = byteAt .out j s) ∧
        t.b32.ocnt = s.b32.ocnt + 1 ∧
        t.b32.cur.toNat = v.toNat * 2 ^ (3 + s.b32.brem.toNat) % 2 ^ 8 ∧
        t.b32.brem.toNat = s.b32.brem.toNat + 3 ∧ t.b32.scnt = s.b32.scnt + 1 ∧
        t.resp = some { fc := .ok, data := 0 } ∧
        t.b32.pad = s.b32.pad ∧ t.b32.st = s.b32.st ∧ t.b32.errcode = s.b32.errcode ∧
        t.b32.errchar = s.b32.errchar ∧ OnlyB32Changed s t) ∧
    (s.outMax = .bytes s.b32.ocnt →
      exec i s = .next { s with
        b32 := { s.b32 with errcode := 5, errchar := 0, st := .fault },
        resp := some { fc := .capacity, data := 0 } })

/-- 40_b32_decode.md R72: B32.END in every case, the final flush of D0 included. -/
def Obligations.EndClosesTheCall : Prop :=
  IsWordOf .b32End 0x1200 ∧
  ∀ s : State,
    (s.b32.st ≠ .run → exec .b32End s = .next (answered s .sequence 0)) ∧
    (s.b32.st = .run → s.b32.scnt * 5 / 8 ≤ s.b32.ocnt →
      exec .b32End s = .next { s with
        b32 := { s.b32 with st := .done }, resp := some { fc := .ok, data := BitVec.ofNat 32 s.b32.ocnt } }) ∧
    (s.b32.st = .run → s.b32.ocnt < s.b32.scnt * 5 / 8 → s.outMax.holds s.b32.ocnt = true →
      ∃ t, exec .b32End s = .next t ∧ t.b32.st = .done ∧ t.b32.ocnt = s.b32.ocnt + 1 ∧
        t.resp = some { fc := .ok, data := BitVec.ofNat 32 (s.b32.ocnt + 1) } ∧
        (Memory.wf s.b32.out = true → byteAt .out s.b32.ocnt t = s.b32.cur) ∧
        (∀ j, j ≠ s.b32.ocnt → byteAt .out j t = byteAt .out j s) ∧
        t.b32.cur = s.b32.cur ∧ t.b32.brem = s.b32.brem ∧ t.b32.scnt = s.b32.scnt ∧ t.b32.pad = s.b32.pad ∧
        t.b32.errcode = s.b32.errcode ∧ t.b32.errchar = s.b32.errchar ∧ OnlyB32Changed s t)

/-- 40_b32_decode.md R72, 90_conflicts.md C1: D0's final flush is dead in every state that meets the invariant. -/
def Obligations.FinalFlushNeverFires : Prop :=
  ∀ s : State, Inv s → s.b32.st = .run →
    exec .b32End s = .next { s with
      b32 := { s.b32 with st := .done }, resp := some { fc := .ok, data := BitVec.ofNat 32 (5 * s.b32.scnt / 8) } }

/-- 40_b32_decode.md R73: B32.RDB in every case. -/
def Obligations.RdbReadsTheSecret : Prop :=
  (∀ i : Byte, IsWordOf (.b32Rdb i) (BitVec.ofNat 16 (0x1300 + i.toNat))) ∧
  ∀ (i : Byte) (s : State),
    (s.b32.st ≠ .done → exec (.b32Rdb i) s = .next (answered s .sequence 0)) ∧
    (s.b32.st = .done → s.b32.ocnt ≤ i.toNat → exec (.b32Rdb i) s = .next (answered s .range 0)) ∧
    (s.b32.st = .done → i.toNat < s.b32.ocnt → s.outMax.fits s.b32.ocnt = true →
      exec (.b32Rdb i) s = .next (answered s .ok ((byteAt .out i.toNat s).setWidth 32)))

-- # TRN

/-- 41_truncate.md R80: TRN.CLR in every state. -/
def Obligations.ClrEmptiesTheDigest : Prop :=
  IsWordOf .trnClr 0x2000 ∧
  ∀ s : State, ∃ t, exec .trnClr s = .next t ∧
    t.trn.dgn = 0 ∧ t.trn.off = 0 ∧ t.trn.bin = 0 ∧ t.trn.binv = false ∧ t.dig.num = 0 ∧ t.dig.digv = false ∧
    t.resp = some { fc := .ok, data := 0 } ∧ (∀ j, byteAt .dg j t = byteAt .dg j s) ∧
    (∀ j, byteAt .code j t = byteAt .code j s) ∧ OnlyCodeUnitsChanged s t

/-- 41_truncate.md R81: TRN.PUSH in every case. -/
def Obligations.PushLoadsTheNextDigestByte : Prop :=
  (∀ byte : Byte, IsWordOf (.trnPush byte) (BitVec.ofNat 16 (0x2100 + byte.toNat))) ∧
  ∀ (byte : Byte) (s : State),
    (s.trn.dgn.toNat < 20 → ∃ t, exec (.trnPush byte) s = .next t ∧
      (Memory.wf s.trn.dg = true → byteAt .dg s.trn.dgn.toNat t = byte) ∧
      (∀ j, j ≠ s.trn.dgn.toNat → byteAt .dg j t = byteAt .dg j s) ∧
      t.trn.dgn.toNat = s.trn.dgn.toNat + 1 ∧ t.resp = some { fc := .ok, data := 0 } ∧
      t.trn.off = s.trn.off ∧ t.trn.bin = s.trn.bin ∧ t.trn.binv = s.trn.binv ∧ t.dig = s.dig ∧
      OnlyCodeUnitsChanged s t) ∧
    (20 ≤ s.trn.dgn.toNat → exec (.trnPush byte) s = .next (answered s .sequence 0))

/-- 41_truncate.md R82: TRN.GO in every case, the result as a number. -/
def Obligations.GoTruncatesTheDigest : Prop :=
  IsWordOf .trnGo 0x2200 ∧
  ∀ s : State,
    (s.trn.dgn.toNat = 20 → ∃ t, exec .trnGo s = .next t ∧
      t.trn.off.toNat = (byteAt .dg 19 s).toNat % 16 ∧
      t.trn.bin.toNat = (byteAt .dg t.trn.off.toNat s).toNat % 128 * 2 ^ 24 +
        (byteAt .dg (t.trn.off.toNat + 1) s).toNat * 2 ^ 16 +
        (byteAt .dg (t.trn.off.toNat + 2) s).toNat * 2 ^ 8 + (byteAt .dg (t.trn.off.toNat + 3) s).toNat ∧
      t.trn.binv = true ∧ t.dig.num = 0 ∧ t.dig.digv = false ∧
      t.resp = some { fc := .ok, data := t.trn.bin } ∧ t.trn.dgn = s.trn.dgn ∧
      (∀ j, byteAt .dg j t = byteAt .dg j s) ∧ (∀ j, byteAt .code j t = byteAt .code j s) ∧
      OnlyCodeUnitsChanged s t) ∧
    (s.trn.dgn.toNat ≠ 20 → exec .trnGo s = .next (answered s .sequence 0))

/-- 41_truncate.md R83: the bounds, and that the result is a function of the 20 digest bytes alone. -/
def Obligations.TruncationDependsOnTheDigestAlone : Prop :=
  (∀ (s t : State) (d : Data), exec .trnGo s = .next t → t.resp = some { fc := .ok, data := d } →
    t.trn.off.toNat ≤ 15 ∧ t.trn.bin.toNat ≤ 2147483647) ∧
  (∀ (s s' t t' : State) (d d' : Data), (∀ k, k < 20 → byteAt .dg k s = byteAt .dg k s') →
    exec .trnGo s = .next t → t.resp = some { fc := .ok, data := d } →
    exec .trnGo s' = .next t' → t'.resp = some { fc := .ok, data := d' } →
    t.trn.bin = t'.trn.bin ∧ t.trn.off = t'.trn.off ∧ d = d')

-- # DIG

/-- 42_digits.md R90: DIG.GO in every case. -/
def Obligations.GoFormatsSixDigits : Prop :=
  IsWordOf .digGo 0x3000 ∧
  ∀ s : State,
    (s.trn.binv = true → ∃ t, exec .digGo s = .next t ∧
      t.dig.num.toNat = s.trn.bin.toNat % 1000000 ∧
      (Memory.wf s.dig.code = true → ∀ k, k < 6 → (byteAt .code (5 - k) t).toNat =
        0x30 + s.trn.bin.toNat % 1000000 / 10 ^ k % 10) ∧
      (∀ j, 6 ≤ j → byteAt .code j t = byteAt .code j s) ∧
      t.dig.digv = true ∧ t.resp = some { fc := .ok, data := BitVec.ofNat 32 (s.trn.bin.toNat % 1000000) } ∧
      t.trn = s.trn ∧ OnlyCodeUnitsChanged s t) ∧
    (s.trn.binv = false → exec .digGo s = .next (answered s .sequence 0))

/-- 42_digits.md R92: DIG.RDC in every case. -/
def Obligations.RdcReadsTheCode : Prop :=
  (∀ i : Byte, IsWordOf (.digRdc i) (BitVec.ofNat 16 (0x3100 + i.toNat))) ∧
  ∀ (i : Byte) (s : State),
    (s.dig.digv = false → exec (.digRdc i) s = .next (answered s .sequence 0)) ∧
    (s.dig.digv = true → i.toNat ≤ 5 →
      exec (.digRdc i) s = .next (answered s .ok ((byteAt .code i.toNat s).setWidth 32))) ∧
    (s.dig.digv = true → 6 ≤ i.toNat → exec (.digRdc i) s = .next (answered s .range 0))

/-- 42_digits.md R93, 70_reset_and_hazards.md R145: while DIGV = 1 the six characters are digits, they spell
`NUM = BIN mod 1000000`, and `BIN` is the truncation of the 20 bytes now in `DG`. -/
def Obligations.ValidCodeSpellsTheDigestNow : Prop :=
  ∀ s : State, Inv s → s.dig.digv = true →
    (∀ k, k < 6 → 0x30 ≤ (byteAt .code k s).toNat ∧ (byteAt .code k s).toNat ≤ 0x39) ∧
    ((List.range 6).map fun k => ((byteAt .code k s).toNat - 0x30) * 10 ^ (5 - k)).sum = s.dig.num.toNat ∧
    s.dig.num.toNat = s.trn.bin.toNat % 1000000 ∧ s.dig.num.toNat = digestNumber ((List.range 20).map fun k => byteAt .dg k s) % 1000000

-- # Faults and frames over all instructions

/-- 60_exceptions.md R125: the table of `Sequence`, both ways, for every instruction. -/
def Obligations.SequenceTable : Prop :=
  ∀ (i : Instr) (s : State),
    (¬ acceptedWhen i s → exec i s = .next (answered s .sequence 0)) ∧
    (acceptedWhen i s → ∀ (t : State) (d : Data), exec i s = .next t → t.resp ≠ some { fc := .sequence, data := d })

/-- 60_exceptions.md R120: a refusal changes no state at all but the response it is reported in. -/
def Obligations.RefusalsChangeNoState : Prop :=
  ∀ (i : Instr) (s t : State) (fc : FaultCode) (d : Data), exec i s = .next t →
    t.resp = some { fc := fc, data := d } → fc = .illegalCommand ∨ fc = .sequence ∨ fc = .range →
    t = answered s fc d

/-- 60_exceptions.md R128: a call fault comes from a symbol command in RUN only and writes exactly ST, ERRCODE,
ERRCHAR. -/
def Obligations.CallFaultsArePrecise : Prop :=
  ∀ (i : Instr) (s t : State) (fc : FaultCode) (d : Data), exec i s = .next t →
    t.resp = some { fc := fc, data := d } → fc = .invalidCharacter ∨ fc = .capacity →
    (symbolOf i).isSome = true ∧ s.b32.st = .run ∧
    t = { s with
      b32 := { s.b32 with st := .fault, errcode := fc.code, errchar := d.setWidth 8 },
      resp := some { fc := fc, data := d } } ∧
    d.toNat < 256 ∧ (fc = .capacity → d = 0)

/-- 10_state.md R16: every change of ST is one of its table. -/
def Obligations.UnitStateChangesAsTabled : Prop :=
  ∀ (i : Instr) (s t : State), exec i s = .next t →
    t.b32.st = s.b32.st ∨ (i = .sreset ∧ t.b32.st = .idle) ∨ (i = .b32Start ∧ t.b32.st = .run) ∨
    (i = .b32End ∧ s.b32.st = .run ∧ t.b32.st = .done) ∨
    ((symbolOf i).isSome = true ∧ s.b32.st = .run ∧ t.b32.st = .fault)

/-- 60_exceptions.md R129, 10_state.md R18: outside RUN only B32.START and SRESET change anything of the B32 unit, so
a fault record stays until one of them, and a decoded secret is immutable until one of them. -/
def Obligations.ClosedCallIsFrozen : Prop :=
  ∀ (i : Instr) (s t : State), s.b32.st ≠ .run → exec i s = .next t → i ≠ .b32Start → i ≠ .sreset →
    t.b32 = s.b32

/-- 10_state.md R26, 60_exceptions.md R128: the units are separate. -/
def Obligations.UnitsDoNotInterfere : Prop :=
  ∀ (i : Instr) (s t : State), exec i s = .next t →
    SamePorts s t ∧
    (unitOf i = 1 → t.trn = s.trn ∧ t.dig = s.dig) ∧
    (unitOf i = 2 → t.b32 = s.b32 ∧ t.dig.code = s.dig.code) ∧
    (unitOf i = 3 → t.b32 = s.b32 ∧ t.trn = s.trn)

/-- 20_memory.md R36: a read may be repeated: it changes no state, and the second answer is the first. -/
def Obligations.ReadsAreIdempotent : Prop :=
  ∀ (i : Instr) (s t : State), (∃ n, i = .rdreg n ∨ i = .b32Rdb n ∨ i = .digRdc n) → exec i s = .next t →
    t.b32 = s.b32 ∧ t.trn = s.trn ∧ t.dig = s.dig ∧ SamePorts s t ∧ exec i t = .next t

/-- The model's own stop (notes/assumptions/11.md): only an access of `OUT` outside its capacity stops the machine. -/
def Obligations.OnlyAnOutIndexPastTheEndStops : Prop :=
  ∀ (i : Instr) (s : State) (f : Fault), exec i s = .fault f →
    ∃ j, f = .noSuchByte .out j ∧ s.outMax.holds j = false ∧ ¬ Inv s

/-- No step is refused: every instruction has a meaning. -/
def Obligations.NoStepIsRefused : Prop := ∀ (s : State) (r : Refusal), step s ≠ .refused r

-- # Invariants

/-- 10_state.md R27, R28: the invariant holds right after reset, for every `OUT_MAX` of 00_scope.md R6. -/
def Obligations.InvariantAtReset : Prop :=
  Inv State.reset ∧ ∀ cap : Capacity, cap.wf = true → Inv (State.resetFor cap)

/-- 10_state.md R27: every step keeps the invariant. -/
def Obligations.StepKeepsInvariant : Prop := ∀ s t : State, Inv s → step s = .next t → Inv t

/-- 70_reset_and_hazards.md R147: from every state that meets the invariant a step goes on, and a command is answered. -/
def Obligations.EveryCommandIsAnswered : Prop :=
  ∀ s : State, Inv s → ∃ t, step s = .next t ∧
    ∀ (w : CommandWord) (rest : List Input), s.inputs = .command w :: rest → t.resp.isSome = true ∧ t.inputs = rest

/-- 10_state.md R13, R14: the counters are bounded, so their 16 bits never wrap. -/
def Obligations.CountersNeverWrap : Prop :=
  ∀ (s : State) (n : Nat), Inv s → s.outMax = .bytes n →
    s.b32.scnt ≤ (8 * n + 7) / 5 ∧ s.b32.scnt ≤ 411 ∧ s.b32.ocnt ≤ n ∧ s.b32.scnt < 2 ^ 16 ∧ s.b32.ocnt < 2 ^ 16

/-- 93_implementation_defined.md U1, U5: what the unreadable bytes hold makes no difference to any response or to any
readable state. -/
def Obligations.UnreadableBytesDoNotMatter : Prop :=
  ∀ s s' t : State, Inv s → Inv s' → SameObservable s s' → step s = .next t →
    ∃ t', step s' = .next t' ∧ SameObservable t t'

-- # Whole strings and whole runs

/-- 40_b32_decode.md R74: the output length. -/
def Obligations.DecodedLength : Prop :=
  ∀ (str bytes : List Byte), wholeDecode str = .ok bytes → bytes.length = 5 * (trimPadding str).length / 8

/-- 40_b32_decode.md R75, 20_memory.md R32: the streamed decode of a string is D0's whole-string decode of it. The spec
marks both as derived from the symbol rules. -/
def Obligations.StreamedDecodeIsWholeDecode : Prop :=
  ∀ (str : List Byte) (s : State), Inv s → s.outMax.fits (5 * (trimPadding str).length / 8) = true →
    match wholeDecode str with
    | .ok bytes => ∃ t,
        issueAll (decodeCommands str) s =
          .ok (List.replicate (str.length + 1) 0 ++ [BitVec.ofNat 32 bytes.length], t) ∧
        t.b32.st = .done ∧ t.b32.ocnt = bytes.length ∧
        (∀ j, j < bytes.length → byteAt .out j t = bytes.getD j 0) ∧ t.trn = s.trn ∧ t.dig = s.dig
    | .error c => issueAll (decodeCommands str) s = .error (.invalidCharacter c.toNat)

/-- 40_b32_decode.md R79: decoding a base32 encoding gives the original bytes, in either case and with any padding. The
spec marks it as derived. -/
def Obligations.DecodingInvertsEncoding : Prop :=
  ∀ (bytes str : List Byte) (k : Nat) (s : State), Inv s → s.outMax.fits bytes.length = true →
    str.map lookup = (encodedValues bytes).map SymClass.value →
    ∃ responses t, issueAll (decodeCommands (str ++ List.replicate k 0x3D)) s = .ok (responses, t) ∧
      t.b32.st = .done ∧ t.b32.ocnt = bytes.length ∧ ∀ j, j < bytes.length → byteAt .out j t = bytes.getD j 0

-- # The host's contract

/-- 44_host_contract.md R103: the rounding, and the two readings of a tie (92_eei_decisions.md D21). -/
def Obligations.UnixNowRoundsToNearest : Prop :=
  (∀ (tie : RoundTie) (n : Int) (f : Rat), 0 ≤ f → f < 1 →
    (f < 1 / 2 → unixNow tie (n + f) = n) ∧ (1 / 2 < f → unixNow tie (n + f) = n + 1)) ∧
  (∀ n : Int, unixNow .halfUp (n + 1 / 2) = n + 1 ∧ unixNow .halfEven (n + 1 / 2) = n + n % 2)

/-- 92_eei_decisions.md D21: the code and the expiry do not depend on `ROUND_TIE`. -/
def Obligations.RoundTieDoesNotMatter : Prop :=
  ∀ now : Rat, 0 ≤ unixNow .halfUp now →
    timeStep .halfUp now = timeStep .halfEven now ∧ expiryUtc .halfUp now = expiryUtc .halfEven now

/-- 44_host_contract.md R105: the moving factor is 8 bytes, big-endian. -/
def Obligations.MovingFactorIsBigEndian : Prop :=
  ∀ step : Nat, step < 2 ^ 64 → (movingFactor step).length = 8 ∧
    (movingFactor step).foldl (fun n b => 256 * n + b.toNat) 0 = step

/-- 44_host_contract.md R110: the closed form of the expiry, which the spec marks as derived from R103, R104, R109, on the
whole domain of D22 (it holds `now >= 0` and the half second before). -/
def Obligations.ExpiryClosedForm : Prop :=
  ∀ (tie : RoundTie) (now : Rat), 0 ≤ unixNow tie now →
    expiryUtc tie now = 30 * ((timeStep tie now : Rat) + 1) - 1 / 1000

/-- 44_host_contract.md R112: the bounds of the expiry, and where D0's bound fails; the spec marks both as derived from
R110. -/
def Obligations.ExpiryBounds : Prop :=
  ∀ (tie : RoundTie) (n : Int) (f : Rat), 0 ≤ f → f < 1 → 0 ≤ unixNow tie (n + f) →
    (f < 1 / 2 → 499 / 1000 < expiryUtc tie (n + f) - (n + f) ∧ expiryUtc tie (n + f) - (n + f) < 30) ∧
    (1 / 2 ≤ f → (n + 1) % 30 = 0 → expiryUtc tie (n + f) - (n + f) = 30999 / 1000 - f)

/-- 44_host_contract.md R111: expiry is strict. -/
def Obligations.ExpiryIsStrict : Prop :=
  ∀ (r : TotpResult) (now : Rat), (isExpired r now = true ↔ r.expiry < now) ∧
    isExpired r r.expiry = false ∧ isExpired r (r.expiry + 1 / 1000) = true ∧
    isExpired r (r.expiry - 1 / 1000) = false

/-- 44_host_contract.md R102, R107: for a valid secret `generate` gives the six digits of the truncated keyed hash of
the decoded secret, for any keyed hash. -/
def Obligations.GenerateGivesTheTotpCode : Prop :=
  ∀ (hmac : List Byte → List Byte → List Byte) (tie : RoundTie) (secret key : List Byte) (now : Rat) (s : State),
    Inv s → InContract tie now → wholeDecode secret = .ok key → key.length ≤ 256 →
    s.outMax.fits key.length = true → (hmac key (movingFactor (timeStep tie now))).length = 20 →
    ∃ t, generate hmac tie (secret.map BitVec.toNat) now s = .ok
      ({ code := sixDigits (digestNumber (hmac key (movingFactor (timeStep tie now))) % 1000000),
         expiry := expiryUtc tie now }, t)

/-- 44_host_contract.md R114: an invalid secret fails `generate` with the offending character, unchanged. -/
def Obligations.GenerateReportsInvalidCharacter : Prop :=
  ∀ (hmac : List Byte → List Byte → List Byte) (tie : RoundTie) (secret : List Byte) (c : Byte) (now : Rat)
    (s : State),
    Inv s → InContract tie now → wholeDecode secret = .error c →
    s.outMax.fits (5 * (trimPadding secret).length / 8) = true →
    generate hmac tie (secret.map BitVec.toNat) now s = .error (.invalidCharacter c.toNat)

/-- 93_implementation_defined.md U10, 44_host_contract.md R114: a character that does not fit the 8-bit port fails the
attempt, whatever stands before it: with the offending character of the symbols before it where they have one, else with
a padding character right before it, else with the character itself. The reading of the order is the model's
(notes/assumptions/14.md). -/
def Obligations.GenerateReportsWideCharacter : Prop :=
  ∀ (hmac : List Byte → List Byte → List Byte) (tie : RoundTie) (before : List Byte) (c : Nat)
    (after : List Nat) (now : Rat) (s : State),
    Inv s → InContract tie now → s.outMax.fits (5 * (trimPadding before).length / 8) = true → 0xFF < c →
    (∀ b : Byte, wholeDecode before = .error b →
      generate hmac tie (before.map BitVec.toNat ++ c :: after) now s = .error (.invalidCharacter b.toNat)) ∧
    (∀ bytes : List Byte, wholeDecode before = .ok bytes → before.getLast? = some 0x3D →
      generate hmac tie (before.map BitVec.toNat ++ c :: after) now s = .error (.invalidCharacter 0x3D)) ∧
    (∀ bytes : List Byte, wholeDecode before = .ok bytes → before.getLast? ≠ some 0x3D →
      generate hmac tie (before.map BitVec.toNat ++ c :: after) now s = .error (.invalidCharacter c))

/-- 44_host_contract.md R115: two instants in one time step give the same code. -/
def Obligations.CodeIsStableWithinAStep : Prop :=
  ∀ (hmac : List Byte → List Byte → List Byte) (tie : RoundTie) (secret : List Nat) (now now' : Rat) (s : State),
    0 ≤ unixNow tie now → 0 ≤ unixNow tie now' → timeStep tie now = timeStep tie now' →
    generate hmac tie secret now s = generate hmac tie secret now' s

/-- 44_host_contract.md R104 with its domain (92_eei_decisions.md D22; 93_implementation_defined.md U6): where
`unixNow >= 0` the time step is the division truncated toward zero and also the floor; `unixNow >= 0` is `now >= -1/2`;
and `generate` refuses an instant exactly outside the contract. -/
def Obligations.TimeStepAndItsDomain : Prop :=
  (∀ (tie : RoundTie) (now : Rat), 0 ≤ unixNow tie now →
    (timeStep tie now : Int) = (unixNow tie now).tdiv 30 ∧ (timeStep tie now : Int) = (unixNow tie now).fdiv 30) ∧
  (∀ (tie : RoundTie) (now : Rat), 0 ≤ unixNow tie now ↔ -1 / 2 ≤ now) ∧
  ∀ (hmac : List Byte → List Byte → List Byte) (tie : RoundTie) (secret : List Nat) (now : Rat) (s : State),
    generate hmac tie secret now s = .error .timeOutOfRange ↔ unixNow tie now < 0 ∨ 2 ^ 64 ≤ timeStep tie now
end

