-- ==== Sys2Proof/Laws/Decode.lean ====
section
/-! SUPPORT. Small facts about command words (30_encoding.md R45, R57): the fields of `(op << 8) | arg`. -/

namespace Sys2Proof

@[simp] theorem opField_commandWord (op arg : Byte) : opField (commandWord op arg) = op := by
  ext i hi
  simp [opField, commandWord, hi, show 8 + i < 16 by omega]

@[simp] theorem argField_commandWord (op arg : Byte) : argField (commandWord op arg) = arg := by
  ext i hi
  simp [argField, commandWord, hi, show i < 16 by omega]

theorem commandWord_fields (w : CommandWord) : commandWord (opField w) (argField w) = w := by
  ext i hi
  by_cases h : i < 8
  · simp [commandWord, opField, argField, h, BitVec.getLsbD_eq_getElem hi]
  · simp [commandWord, opField, argField, h, show 8 + (i - 8) = i by omega, show i - 8 < 8 by omega, BitVec.getLsbD_eq_getElem hi]

/-- Masking a word with 0xFF00 keeps its `op` field. -/
theorem commandWord_masked (op arg : Byte) : commandWord op arg &&& 0xFF00#16 = commandWord op 0 := by
  have hm : ∀ i (hi : i < 16), (0xFF00#16)[i] = decide (8 ≤ i) := by decide
  ext i hi
  simp only [commandWord, BitVec.getElem_and, hm i hi]
  by_cases h : i < 8
  · simp [h, show ¬ 8 ≤ i by omega]
  · simp [h, show 8 ≤ i by omega]

end Sys2Proof
end

