-- ==== Sys2Proof/Laws/Memory.lean ====
section
/-! SUPPORT. The byte files: a read after a write, and every write keeps the canonical form. -/

namespace Sys2Proof.Machine

theorem Memory.wfFrom_mono {m : Memory} : ∀ {lo hi : Nat}, lo ≤ hi → Memory.wfFrom hi m = true →
    Memory.wfFrom lo m = true := by
  cases m with
  | nil => intros; rfl
  | cons c m =>
    intro lo hi h hw
    simp only [Memory.wfFrom, Bool.and_eq_true, decide_eq_true_eq] at hw ⊢
    exact ⟨⟨by omega, hw.1.2⟩, hw.2⟩

/-- Below its first address a canonical byte file reads as unlisted. -/
theorem Memory.read_below {m : Memory} : ∀ {lo i : Nat}, Memory.wfFrom lo m = true → i < lo →
    Memory.read m i = unlistedByte := by
  induction m with
  | nil => intros; rfl
  | cons c m ih =>
    intro lo i hw h
    simp only [Memory.wfFrom, Bool.and_eq_true, decide_eq_true_eq] at hw
    have hne : c.1 ≠ i := by omega
    simp only [Memory.read, hne, if_false]
    exact ih hw.2 (by omega)

/-- A write leaves every other address alone. -/
theorem Memory.read_write_other {i j : Nat} (h : j ≠ i) (v : Byte) (m : Memory) :
    Memory.read (Memory.write m i v) j = Memory.read m j := by
  induction m with
  | nil =>
    simp only [Memory.write]
    split
    · rfl
    · simp [Memory.read, h.symm]
  | cons c m ih =>
    simp only [Memory.write]
    split
    · split
      · rfl
      · simp [Memory.read, h.symm]
    · split
      · rename_i _ hi
        have hc : c.1 ≠ j := by omega
        split <;> simp [Memory.read, hc, h.symm]
      · simp only [Memory.read, ih]

/-- A read gives what was last written there. -/
theorem Memory.read_write_same (i : Nat) (v : Byte) : ∀ {m : Memory} {lo : Nat}, Memory.wfFrom lo m = true →
    Memory.read (Memory.write m i v) i = v := by
  intro m
  induction m with
  | nil =>
    intro lo _
    simp only [Memory.write]
    split
    · rename_i hv; exact hv.symm
    · simp [Memory.read]
  | cons c m ih =>
    intro lo hw
    have hw' := hw
    simp only [Memory.wfFrom, Bool.and_eq_true, decide_eq_true_eq] at hw
    simp only [Memory.write]
    split
    · rename_i hlt
      split
      · rename_i hv
        have hne : c.1 ≠ i := by omega
        simp only [Memory.read, hne, if_false, hv]
        exact Memory.read_below hw.2 (by omega)
      · simp [Memory.read]
    · split
      · rename_i hi
        split
        · rename_i hv
          rw [hv]
          exact Memory.read_below hw.2 (by omega)
        · simp [Memory.read]
      · rename_i hge hi
        have hne : c.1 ≠ i := fun e => hi e.symm
        simp only [Memory.read, hne, if_false]
        exact ih hw.2

theorem Memory.write_wfFrom (i : Nat) (v : Byte) : ∀ {m : Memory} {lo : Nat}, lo ≤ i → Memory.wfFrom lo m = true →
    Memory.wfFrom lo (Memory.write m i v) = true := by
  intro m
  induction m with
  | nil =>
    intro lo hlo _
    simp only [Memory.write]
    split <;> simp_all [Memory.wfFrom]
  | cons c m ih =>
    intro lo hlo hw
    simp only [Memory.wfFrom, Bool.and_eq_true, decide_eq_true_eq] at hw
    simp only [Memory.write]
    split
    · split
      · simp [Memory.wfFrom, hw]
      · simp_all [Memory.wfFrom]
    · split
      · rename_i _ hi
        split
        · exact Memory.wfFrom_mono (by omega) hw.2
        · simp_all [Memory.wfFrom]
      · rename_i hge hi
        simp only [Memory.wfFrom, Bool.and_eq_true, decide_eq_true_eq]
        exact ⟨hw.1, ih (by omega) hw.2⟩

/-- A write keeps the canonical form. -/
theorem Memory.write_wf (m : Memory) (i : Nat) (v : Byte) (h : Memory.wf m = true) :
    Memory.wf (Memory.write m i v) = true :=
  Memory.write_wfFrom i v (Nat.zero_le i) h

/-- A write lists no address that was not listed but its own. -/
theorem Memory.mem_write {m : Memory} {i : Nat} {v : Byte} {c : Host.Cell} (h : c ∈ Memory.write m i v) :
    c ∈ m ∨ c.1 = i := by
  induction m with
  | nil =>
    simp only [Memory.write] at h
    split at h <;> simp_all
  | cons a m ih =>
    simp only [Memory.write] at h
    split at h
    · split at h <;> simp only [List.mem_cons] at h ⊢ <;> grind
    · split at h
      · split at h <;> simp only [List.mem_cons] at h ⊢ <;> grind
      · simp only [List.mem_cons] at h ⊢
        rcases h with h | h
        · exact .inl (.inl h)
        · rcases ih h with h | h <;> simp [h]

end Sys2Proof.Machine
end

