-- ==== Sys2Proof/Laws/State.lean ====
section
/-! SUPPORT. What each update of the state changes and what it leaves: one lemma per field per update. -/

namespace Sys2Proof.Machine

@[simp] theorem respond_b32 (fc : FaultCode) (d : Data) (s : State) : (respond fc d s).b32 = s.b32 := rfl
@[simp] theorem respond_trn (fc : FaultCode) (d : Data) (s : State) : (respond fc d s).trn = s.trn := rfl
@[simp] theorem respond_dig (fc : FaultCode) (d : Data) (s : State) : (respond fc d s).dig = s.dig := rfl
@[simp] theorem respond_outMax (fc : FaultCode) (d : Data) (s : State) : (respond fc d s).outMax = s.outMax := rfl
@[simp] theorem respond_inputs (fc : FaultCode) (d : Data) (s : State) : (respond fc d s).inputs = s.inputs := rfl
@[simp] theorem respond_resp (fc : FaultCode) (d : Data) (s : State) : (respond fc d s).resp = some { fc := fc, data := d } := rfl

@[simp] theorem recordCallFault_b32 (fc : FaultCode) (c : Byte) (s : State) : (recordCallFault fc c s).b32 = { s.b32 with st := .fault, errcode := fc.code, errchar := c } := rfl
@[simp] theorem recordCallFault_trn (fc : FaultCode) (c : Byte) (s : State) : (recordCallFault fc c s).trn = s.trn := rfl
@[simp] theorem recordCallFault_dig (fc : FaultCode) (c : Byte) (s : State) : (recordCallFault fc c s).dig = s.dig := rfl
@[simp] theorem recordCallFault_outMax (fc : FaultCode) (c : Byte) (s : State) : (recordCallFault fc c s).outMax = s.outMax := rfl
@[simp] theorem recordCallFault_inputs (fc : FaultCode) (c : Byte) (s : State) : (recordCallFault fc c s).inputs = s.inputs := rfl
@[simp] theorem recordCallFault_resp (fc : FaultCode) (c : Byte) (s : State) : (recordCallFault fc c s).resp = s.resp := rfl

@[simp] theorem openCall_b32 (s : State) : (openCall s).b32 = 
      { s.b32 with cur := 0, brem := 8, scnt := 0, ocnt := 0, pad := false, errcode := 0, errchar := 0, st := .run } := rfl
@[simp] theorem openCall_trn (s : State) : (openCall s).trn = s.trn := rfl
@[simp] theorem openCall_dig (s : State) : (openCall s).dig = s.dig := rfl
@[simp] theorem openCall_outMax (s : State) : (openCall s).outMax = s.outMax := rfl
@[simp] theorem openCall_inputs (s : State) : (openCall s).inputs = s.inputs := rfl
@[simp] theorem openCall_resp (s : State) : (openCall s).resp = s.resp := rfl

@[simp] theorem resetRegisters_b32 (s : State) : (resetRegisters s).b32 = .reset := rfl
@[simp] theorem resetRegisters_trn (s : State) : (resetRegisters s).trn = .reset := rfl
@[simp] theorem resetRegisters_dig (s : State) : (resetRegisters s).dig = .reset := rfl
@[simp] theorem resetRegisters_outMax (s : State) : (resetRegisters s).outMax = s.outMax := rfl
@[simp] theorem resetRegisters_inputs (s : State) : (resetRegisters s).inputs = s.inputs := rfl
@[simp] theorem resetRegisters_resp (s : State) : (resetRegisters s).resp = s.resp := rfl

@[simp] theorem hardwareReset_b32 (s : State) : (hardwareReset s).b32 = .reset := rfl
@[simp] theorem hardwareReset_trn (s : State) : (hardwareReset s).trn = .reset := rfl
@[simp] theorem hardwareReset_dig (s : State) : (hardwareReset s).dig = .reset := rfl
@[simp] theorem hardwareReset_outMax (s : State) : (hardwareReset s).outMax = s.outMax := rfl
@[simp] theorem hardwareReset_inputs (s : State) : (hardwareReset s).inputs = s.inputs := rfl
@[simp] theorem hardwareReset_resp (s : State) : (hardwareReset s).resp = none := rfl

@[simp] theorem setPad_b32 (s : State) : (setPad s).b32 = { s.b32 with pad := true } := rfl
@[simp] theorem setPad_trn (s : State) : (setPad s).trn = s.trn := rfl
@[simp] theorem setPad_dig (s : State) : (setPad s).dig = s.dig := rfl
@[simp] theorem setPad_outMax (s : State) : (setPad s).outMax = s.outMax := rfl
@[simp] theorem setPad_inputs (s : State) : (setPad s).inputs = s.inputs := rfl
@[simp] theorem setPad_resp (s : State) : (setPad s).resp = s.resp := rfl

@[simp] theorem closeCall_b32 (s : State) : (closeCall s).b32 = { s.b32 with st := .done } := rfl
@[simp] theorem closeCall_trn (s : State) : (closeCall s).trn = s.trn := rfl
@[simp] theorem closeCall_dig (s : State) : (closeCall s).dig = s.dig := rfl
@[simp] theorem closeCall_outMax (s : State) : (closeCall s).outMax = s.outMax := rfl
@[simp] theorem closeCall_inputs (s : State) : (closeCall s).inputs = s.inputs := rfl
@[simp] theorem closeCall_resp (s : State) : (closeCall s).resp = s.resp := rfl

@[simp] theorem invalidateCode_b32 (s : State) : (invalidateCode s).b32 = s.b32 := rfl
@[simp] theorem invalidateCode_trn (s : State) : (invalidateCode s).trn = s.trn := rfl
@[simp] theorem invalidateCode_dig (s : State) : (invalidateCode s).dig = { s.dig with num := 0, digv := false } := rfl
@[simp] theorem invalidateCode_outMax (s : State) : (invalidateCode s).outMax = s.outMax := rfl
@[simp] theorem invalidateCode_inputs (s : State) : (invalidateCode s).inputs = s.inputs := rfl
@[simp] theorem invalidateCode_resp (s : State) : (invalidateCode s).resp = s.resp := rfl

@[simp] theorem setFile_out_b32 (m : Memory) (s : State) : (setFile .out m s).b32 = { s.b32 with out := m } := rfl
@[simp] theorem setFile_out_trn (m : Memory) (s : State) : (setFile .out m s).trn = s.trn := rfl
@[simp] theorem setFile_out_dig (m : Memory) (s : State) : (setFile .out m s).dig = s.dig := rfl
@[simp] theorem setFile_out_outMax (m : Memory) (s : State) : (setFile .out m s).outMax = s.outMax := rfl
@[simp] theorem setFile_out_inputs (m : Memory) (s : State) : (setFile .out m s).inputs = s.inputs := rfl
@[simp] theorem setFile_out_resp (m : Memory) (s : State) : (setFile .out m s).resp = s.resp := rfl

@[simp] theorem setFile_dg_b32 (m : Memory) (s : State) : (setFile .dg m s).b32 = s.b32 := rfl
@[simp] theorem setFile_dg_trn (m : Memory) (s : State) : (setFile .dg m s).trn = { s.trn with dg := m } := rfl
@[simp] theorem setFile_dg_dig (m : Memory) (s : State) : (setFile .dg m s).dig = s.dig := rfl
@[simp] theorem setFile_dg_outMax (m : Memory) (s : State) : (setFile .dg m s).outMax = s.outMax := rfl
@[simp] theorem setFile_dg_inputs (m : Memory) (s : State) : (setFile .dg m s).inputs = s.inputs := rfl
@[simp] theorem setFile_dg_resp (m : Memory) (s : State) : (setFile .dg m s).resp = s.resp := rfl

@[simp] theorem setFile_code_b32 (m : Memory) (s : State) : (setFile .code m s).b32 = s.b32 := rfl
@[simp] theorem setFile_code_trn (m : Memory) (s : State) : (setFile .code m s).trn = s.trn := rfl
@[simp] theorem setFile_code_dig (m : Memory) (s : State) : (setFile .code m s).dig = { s.dig with code := m } := rfl
@[simp] theorem setFile_code_outMax (m : Memory) (s : State) : (setFile .code m s).outMax = s.outMax := rfl
@[simp] theorem setFile_code_inputs (m : Memory) (s : State) : (setFile .code m s).inputs = s.inputs := rfl
@[simp] theorem setFile_code_resp (m : Memory) (s : State) : (setFile .code m s).resp = s.resp := rfl

theorem byteAt_out (i : Nat) (s : State) : byteAt .out i s = Memory.read s.b32.out i := rfl
theorem byteAt_dg (i : Nat) (s : State) : byteAt .dg i s = Memory.read s.trn.dg i := rfl
theorem byteAt_code (i : Nat) (s : State) : byteAt .code i s = Memory.read s.dig.code i := rfl

@[simp] theorem byteAt_respond (sp : Space) (i : Nat) (fc : FaultCode) (d : Data) (s : State) :
    byteAt sp i (respond fc d s) = byteAt sp i s := by cases sp <;> rfl

@[simp] theorem inSpace_respond (sp : Space) (i : Nat) (fc : FaultCode) (d : Data) (s : State) :
    inSpace sp i (respond fc d s) = inSpace sp i s := by cases sp <;> rfl

@[simp] theorem inSpace_setFile (sp sp' : Space) (i : Nat) (m : Memory) (s : State) :
    inSpace sp i (setFile sp' m s) = inSpace sp i s := by cases sp <;> cases sp' <;> rfl

@[simp] theorem file_setFile (sp : Space) (m : Memory) (s : State) : file sp (setFile sp m s) = m := by
  cases sp <;> rfl

/-- The three byte files are disjoint (20_memory.md R30). -/
theorem file_setFile_other {sp sp' : Space} (h : sp ≠ sp') (m : Memory) (s : State) :
    file sp (setFile sp' m s) = file sp s := by
  cases sp <;> cases sp' <;> first | rfl | exact absurd rfl h

end Sys2Proof.Machine
end

