-- ==== Sys2Proof/Laws/Ops.lean ====
section
/-! SUPPORT. What each shared operation can do, said once. -/

namespace Sys2Proof.Machine

theorem memRead_ok {sp : Space} {i : Nat} {s : State} (h : inSpace sp i s = true) :
    memRead sp i s = .ok (byteAt sp i s) := by
  simp [memRead, h]

theorem memWrite_ok {sp : Space} {i : Nat} {s : State} (v : Byte) (h : inSpace sp i s = true) :
    memWrite sp i v s = .ok (setFile sp ((file sp s).write i v) s) := by
  simp [memWrite, h]

/-- An access stops only outside its space, and under one name. -/
theorem memRead_error {sp : Space} {i : Nat} {s : State} {f : Fault} (h : memRead sp i s = .error f) :
    inSpace sp i s = false ∧ f = .noSuchByte sp i := by
  unfold memRead at h
  split at h
  · cases h
  · rename_i hin
    cases h
    exact ⟨by simpa using hin, rfl⟩

theorem memWrite_error {sp : Space} {i : Nat} {v : Byte} {s : State} {f : Fault} (h : memWrite sp i v s = .error f) :
    inSpace sp i s = false ∧ f = .noSuchByte sp i := by
  unfold memWrite at h
  split at h
  · cases h
  · rename_i hin
    cases h
    exact ⟨by simpa using hin, rfl⟩

/-- A read of a byte just written. -/
theorem byteAt_setFile_write_same {sp : Space} {i : Nat} {v : Byte} {s : State} (h : Memory.wf (file sp s) = true) :
    byteAt sp i (setFile sp ((file sp s).write i v) s) = v := by
  simp only [byteAt, file_setFile]
  exact Memory.read_write_same i v h

/-- A write leaves every other byte of its space alone. -/
theorem byteAt_setFile_write_other {sp : Space} {i j : Nat} {v : Byte} {s : State} (h : j ≠ i) :
    byteAt sp j (setFile sp ((file sp s).write i v) s) = byteAt sp j s := by
  simp only [byteAt, file_setFile]
  exact Memory.read_write_other h v _

@[simp] theorem onAccess_ok {α : Type} (a : α) (k : α → Result) : onAccess (.ok a) k = k a := rfl

@[simp] theorem onAccess_error {α : Type} (f : Fault) (k : α → Result) : onAccess (.error f) k = .fault f := rfl

/-- An access goes on with its value, or the machine stops with its fault. -/
theorem onAccess_next {α : Type} {r : Except Fault α} {k : α → Result} {t : State} (h : onAccess r k = .next t) :
    ∃ a, r = .ok a ∧ k a = .next t := by
  cases r with
  | ok a => exact ⟨a, rfl, h⟩
  | error f => cases h

theorem respondOk_next {d : Data} {s t : State} (h : respondOk d s = .next t) : t = respond .ok d s := by
  cases h; rfl

/-- Everything a raised fault does (60_exceptions.md R120, R121, R128). -/
theorem raise_cases (r : Raised) (s : State) :
    raise r s = .next (respond (faultCode r) (faultData r) s) ∨
    ∃ fc c, raise r s = .next (respond (faultCode r) (faultData r) (recordCallFault fc c s)) ∧ faultCode r = fc := by
  cases r with
  | invalidCharacter c => exact .inr ⟨.invalidCharacter, c, rfl, rfl⟩
  | capacity => exact .inr ⟨.capacity, 0, rfl, rfl⟩
  | illegalCommand w => exact .inl rfl
  | sequence => exact .inl rfl
  | range => exact .inl rfl

/-- A step with a command word on the port executes it. -/
theorem step_command {s : State} {w : CommandWord} {rest : List Input} (h : s.inputs = .command w :: rest) :
    step s = executeWord w { s with inputs := rest } := by
  simp [step, h, takeInput]

theorem executeWord_ok {w : CommandWord} {i : Instr} {s : State} (h : decode w = .ok i) :
    executeWord w s = exec i s := by
  simp [executeWord, h]

end Sys2Proof.Machine
end

