-- ==== Sys2Proof/Laws/Exec.lean ====
section
/-! SUPPORT. What each command can do, said once: one case lemma per shared operation, and `exec_effect`, the inversion
of `exec` that claims about all instructions use in place of 70 cases. -/

namespace Sys2Proof.Machine

open Sys2Proof.Config

/-- Ten constructors, or one that delivers a symbol. -/
theorem instr_shapes (i : Instr) :
    (∃ n, i = .rdreg n) ∨ i = .sreset ∨ i = .b32Start ∨ i = .b32End ∨ (∃ n, i = .b32Rdb n) ∨ i = .trnClr ∨
    (∃ b, i = .trnPush b) ∨ i = .trnGo ∨ i = .digGo ∨ (∃ n, i = .digRdc n) ∨ ∃ c, symbolOf i = some c := by
  cases i with
  | b32Sym c => simp [symbolOf, encode]
  | rdreg | b32Rdb | trnPush | digRdc => simp
  | sreset | b32Start | b32End | trnClr | trnGo | digGo => simp
  | _ => exact .inr (.inr (.inr (.inr (.inr (.inr (.inr (.inr (.inr (.inr ⟨_, rfl⟩)))))))))

/-- Every symbol command is the one shared operation on its code. -/
theorem exec_symbol {i : Instr} {c : Byte} (h : symbolOf i = some c) (s : State) : exec i s = deliverSymbol c s := by
  cases i with
  | b32Sym d =>
    simp only [symbolOf, encode, opField_commandWord, argField_commandWord, if_true, Option.some.injEq] at h
    subst h; rfl
  | rdreg n => simp [symbolOf, encode] at h
  | b32Rdb n => simp [symbolOf, encode] at h
  | trnPush n => simp [symbolOf, encode] at h
  | digRdc n => simp [symbolOf, encode] at h
  | sreset | b32Start | b32End | trnClr | trnGo | digGo => simp [symbolOf, encode, opField] at h
  | _ => cases Option.some.inj h; rfl

theorem inSpace_out (i : Nat) (s : State) : inSpace .out i s = s.outMax.holds i := rfl

theorem inSpace_dg {i : Nat} (h : i < 20) (s : State) : inSpace .dg i s = true := by
  simp [inSpace, digestLen, h]

theorem inSpace_code {i : Nat} (h : i < 6) (s : State) : inSpace .code i s = true := by
  simp [inSpace, digits, h]

/-- The bytes below a count that fits are in the buffer. -/
theorem holds_of_fits {cap : Capacity} {n i : Nat} (h : cap.fits n = true) (hi : i < n) : cap.holds i = true := by
  cases cap <;> simp_all [Capacity.fits, Capacity.holds]
  omega

/-- The invariant does not look at the inputs or the response. -/
theorem Inv.ports {s : State} (h : Inv s) (ins : List Input) (r : Option Response) :
    Inv { s with inputs := ins, resp := r } := by
  obtain ⟨h1, h2, h3, h4, h5, h6, h7, h8, h9, h10, h11, h12, h13, h14, h15, h16, h17, h18, h19, h20, h21, h22, h23,
    h24, h25, h26⟩ := h
  exact ⟨h1, h2, h3, h4, h5, h6, h7, h8, h9, h10, h11, h12, h13, h14, h15, h16, h17, h18, h19, h20, h21, h22, h23,
    h24, h25, h26⟩

-- # B32

/-- The cases of 40_b32_decode.md R66 before an alphabet value. -/
theorem deliverSymbol_cases (c : Byte) (s : State) :
    (s.b32.st ≠ .run ∧ deliverSymbol c s = raise .sequence s) ∨
    (s.b32.st = .run ∧ ∃ b, deliverSymbol c s = raise (.invalidCharacter b) s) ∨
    (s.b32.st = .run ∧ deliverSymbol c s = respondOk 0 (setPad s)) ∨
    (s.b32.st = .run ∧ s.b32.pad = false ∧ ∃ v, lookup c = .value v ∧ deliverSymbol c s = acceptValue v s) := by
  by_cases h : s.b32.st = .run
  · right
    by_cases hp : s.b32.pad = true ∧ lookup c ≠ .pad
    · exact .inl ⟨h, padCode, by simp [deliverSymbol, callOpen, h, hp.1, hp.2]⟩
    · have hpad : lookup c ≠ .pad → s.b32.pad = false := fun hl => by
        cases hq : s.b32.pad
        · rfl
        · exact absurd ⟨hq, hl⟩ hp
      rcases hl : lookup c with v | _ | _
      · have := hpad (by simp [hl])
        exact .inr (.inr ⟨h, this, v, rfl, by simp [deliverSymbol, callOpen, h, hl, this]⟩)
      · exact .inr (.inl ⟨h, by simp [deliverSymbol, callOpen, h, hl]⟩)
      · have := hpad (by simp [hl])
        exact .inl ⟨h, c, by simp [deliverSymbol, callOpen, h, hl, this]⟩
  · exact .inl ⟨h, by simp [deliverSymbol, callOpen, h]⟩

/-- The state after a value that fits (R70). -/
def fitsState (v : SymValue) (s : State) : State :=
  { s with b32 := { s.b32 with
      cur := s.b32.cur ||| BitVec.ofNat 8 (shiftLeft v.toNat (s.b32.brem.toNat - 5)),
      brem := BitVec.ofNat 4 (s.b32.brem.toNat - 5),
      scnt := s.b32.scnt + 1 } }

/-- The state after a value that straddles (R71). -/
def straddlesState (v : SymValue) (s : State) : State :=
  { s with b32 := { s.b32 with
      out := s.b32.out.write s.b32.ocnt (completedByte v s),
      ocnt := s.b32.ocnt + 1,
      cur := BitVec.ofNat 8 (shiftLeft v.toNat (3 + s.b32.brem.toNat)),
      brem := BitVec.ofNat 4 (s.b32.brem.toNat + 3),
      scnt := s.b32.scnt + 1 } }

/-- The cases of R70, R71; the last breaks 10_state.md R27 item 5. -/
theorem acceptValue_cases (v : SymValue) (s : State) :
    (5 < s.b32.brem.toNat ∧ acceptValue v s = respondOk 0 (fitsState v s)) ∨
    (s.b32.brem.toNat ≤ 5 ∧ s.outMax = .bytes s.b32.ocnt ∧ acceptValue v s = raise .capacity s) ∨
    (s.b32.brem.toNat ≤ 5 ∧ s.outMax.holds s.b32.ocnt = true ∧ acceptValue v s = respondOk 0 (straddlesState v s)) ∨
    (s.outMax.holds s.b32.ocnt = false ∧ (∃ n, s.outMax = .bytes n ∧ n < s.b32.ocnt) ∧
      acceptValue v s = .fault (.noSuchByte .out s.b32.ocnt)) := by
  by_cases hb : 5 < s.b32.brem.toNat
  · exact .inl ⟨hb, by simp [acceptValue, hb, acceptFits, fitsState]⟩
  right
  have hb' : s.b32.brem.toNat ≤ 5 := by omega
  cases hm : s.outMax with
  | infinite =>
    exact .inr (.inl ⟨hb', rfl, by
      simp [acceptValue, hb, acceptStraddles, bufferFull, hm, memWrite, inSpace, Capacity.holds, straddlesState,
        setFile, file]⟩)
  | bytes n =>
    rcases Nat.lt_trichotomy s.b32.ocnt n with h | h | h
    · exact .inr (.inl ⟨hb', by simp [Capacity.holds, h], by
        simp [acceptValue, hb, acceptStraddles, bufferFull, hm, memWrite, inSpace, Capacity.holds, straddlesState,
          setFile, file, h, show ¬ s.b32.ocnt = n by omega]⟩)
    · exact .inl ⟨hb', by simp [h], by simp [acceptValue, hb, acceptStraddles, bufferFull, hm, h]⟩
    · exact .inr (.inr ⟨by simp [Capacity.holds]; omega, ⟨n, rfl, h⟩, by
        simp [acceptValue, hb, acceptStraddles, bufferFull, hm, memWrite, inSpace, Capacity.holds,
          show ¬ s.b32.ocnt < n by omega, show ¬ s.b32.ocnt = n by omega]⟩)

/-- The state after D0's final flush and the close (R72). -/
def flushedState (s : State) : State :=
  { s with b32 := { s.b32 with
      out := s.b32.out.write s.b32.ocnt s.b32.cur, ocnt := s.b32.ocnt + 1, st := .done } }

/-- The cases of R72; the last two break 10_state.md R27 item 3. -/
theorem execB32End_cases (s : State) :
    (s.b32.st ≠ .run ∧ execB32End s = raise .sequence s) ∨
    (s.b32.st = .run ∧ expectedLength s ≤ s.b32.ocnt ∧
      execB32End s = respondOk (BitVec.ofNat 32 s.b32.ocnt) (closeCall s)) ∨
    (s.b32.st = .run ∧ s.b32.ocnt < expectedLength s ∧ s.outMax.holds s.b32.ocnt = true ∧
      execB32End s = respondOk (BitVec.ofNat 32 (s.b32.ocnt + 1)) (flushedState s)) ∨
    (s.b32.st = .run ∧ s.b32.ocnt < expectedLength s ∧ s.outMax.holds s.b32.ocnt = false ∧
      execB32End s = .fault (.noSuchByte .out s.b32.ocnt)) := by
  by_cases h : s.b32.st = .run
  · right
    by_cases h1 : s.b32.ocnt < expectedLength s
    · right
      by_cases h2 : s.outMax.holds s.b32.ocnt = true
      · exact .inl ⟨h, h1, h2, by
          simp [execB32End, callOpen, h, finalFlush, h1, memWrite, inSpace, h2, closeCall, setFile, file,
            flushedState]⟩
      · exact .inr ⟨h, h1, by simpa using h2, by
          simp [execB32End, callOpen, h, finalFlush, h1, memWrite, inSpace, h2]⟩
    · exact .inl ⟨h, by omega, by simp [execB32End, callOpen, h, finalFlush, h1]⟩
  · exact .inl ⟨h, by simp [execB32End, callOpen, h]⟩

/-- The cases of R73; the last breaks 10_state.md R27 item 5. -/
theorem execB32Rdb_cases (i : Byte) (s : State) :
    (s.b32.st ≠ .done ∧ execB32Rdb i s = raise .sequence s) ∨
    (s.b32.st = .done ∧ s.b32.ocnt ≤ i.toNat ∧ execB32Rdb i s = raise .range s) ∨
    (s.b32.st = .done ∧ i.toNat < s.b32.ocnt ∧
      execB32Rdb i s = respondOk ((byteAt .out i.toNat s).setWidth 32) s) ∨
    (s.b32.st = .done ∧ i.toNat < s.b32.ocnt ∧ s.outMax.holds i.toNat = false ∧
      execB32Rdb i s = .fault (.noSuchByte .out i.toNat)) := by
  by_cases h : s.b32.st = .done
  · right
    by_cases h1 : s.b32.ocnt ≤ i.toNat
    · exact .inl ⟨h, h1, by simp [execB32Rdb, secretReadable, h, indexOperand, h1]⟩
    · right
      by_cases h2 : s.outMax.holds i.toNat = true
      · exact .inl ⟨h, by omega, by simp [execB32Rdb, secretReadable, h, indexOperand, h1, memRead, inSpace, h2]⟩
      · exact .inr ⟨h, by omega, by simpa using h2, by
          simp [execB32Rdb, secretReadable, h, indexOperand, h1, memRead, inSpace, h2]⟩
  · exact .inl ⟨h, by simp [execB32Rdb, secretReadable, h]⟩

-- # TRN

/-- The state after a digest byte (41_truncate.md R81). -/
def pushedState (b : Byte) (s : State) : State :=
  { s with trn := { s.trn with dg := s.trn.dg.write s.trn.dgn.toNat b, dgn := s.trn.dgn + 1 } }

theorem execTrnPush_cases (b : Byte) (s : State) :
    (20 ≤ s.trn.dgn.toNat ∧ execTrnPush b s = raise .sequence s) ∨
    (s.trn.dgn.toNat < 20 ∧ execTrnPush b s = respondOk 0 (pushedState b s)) := by
  by_cases h : s.trn.dgn.toNat < 20
  · exact .inr ⟨h, by simp [execTrnPush, digestOpen, digestLen, memWrite, inSpace, h, pushedState, setFile, file]⟩
  · exact .inl ⟨by omega, by simp [execTrnPush, digestOpen, digestLen, h]⟩

/-- The offset as a number (R82). -/
theorem truncationOffset_toNat (b : Byte) : (truncationOffset b).toNat = b.toNat % 16 := by
  simp [truncationOffset]

/-- The truncated word as a number (R82; 20_memory.md R33). -/
theorem truncatedWord_toNat (a b c d : Byte) :
    (truncatedWord a b c d).toNat = a.toNat % 128 * 2 ^ 24 + b.toNat * 2 ^ 16 + c.toNat * 2 ^ 8 + d.toNat := by
  have ha := a.isLt
  have hb := b.isLt
  have hc := c.isLt
  have hd := d.isLt
  have hm : (a &&& (0x7F : Byte)).toNat = a.toNat % 128 := by
    rw [BitVec.toNat_and]; exact Nat.and_two_pow_sub_one_eq_mod _ 7
  have hw : ∀ x : Byte, (x.setWidth 32).toNat = x.toNat := fun x => by simp; omega
  simp only [truncatedWord, BitVec.toNat_or, BitVec.toNat_shiftLeft]
  rw [hw, hm, hw, hw, hw,
    Nat.mod_eq_of_lt (a := (a.toNat % 128) <<< 24) (by simp [Nat.shiftLeft_eq]; omega),
    Nat.mod_eq_of_lt (a := b.toNat <<< 16) (by simp [Nat.shiftLeft_eq]; omega),
    Nat.mod_eq_of_lt (a := c.toNat <<< 8) (by simp [Nat.shiftLeft_eq]; omega)]
  rw [Nat.or_assoc, Nat.or_assoc]
  rw [← Nat.shiftLeft_add_eq_or_of_lt (show d.toNat < 2 ^ 8 from hd)]
  rw [← Nat.shiftLeft_add_eq_or_of_lt (i := 16) (by simp [Nat.shiftLeft_eq]; omega)]
  rw [← Nat.shiftLeft_add_eq_or_of_lt (i := 24) (by simp [Nat.shiftLeft_eq]; omega)]
  simp [Nat.shiftLeft_eq]; omega

/-- The state after a truncation (R82). -/
def truncatedState (o : BitVec 4) (b : BitVec 32) (s : State) : State :=
  invalidateCode { s with trn := { s.trn with off := o, bin := b, binv := true } }

/-- `o` and `b` are the offset and the truncated word of the digest in `DG` (R82). -/
def IsTruncation (o : BitVec 4) (b : BitVec 32) (s : State) : Prop :=
  o.toNat = (byteAt .dg 19 s).toNat % 16 ∧
  b.toNat = (byteAt .dg o.toNat s).toNat % 128 * 2 ^ 24 + (byteAt .dg (o.toNat + 1) s).toNat * 2 ^ 16 +
    (byteAt .dg (o.toNat + 2) s).toNat * 2 ^ 8 + (byteAt .dg (o.toNat + 3) s).toNat

theorem execTrnGo_cases (s : State) :
    (s.trn.dgn.toNat ≠ 20 ∧ execTrnGo s = raise .sequence s) ∨
    (s.trn.dgn.toNat = 20 ∧ ∃ o b, IsTruncation o b s ∧ execTrnGo s = respondOk b (truncatedState o b s)) := by
  by_cases h : s.trn.dgn.toNat = 20
  · have ho := (truncationOffset (byteAt .dg 19 s)).isLt
    have hl : digestLoaded s = true := by simp [digestLoaded, digestLen, h]
    refine .inr ⟨h, truncationOffset (byteAt .dg 19 s), _,
      ⟨truncationOffset_toNat _, truncatedWord_toNat _ _ _ _⟩, ?_⟩
    simp only [execTrnGo, hl, Bool.not_true, Bool.false_eq_true, if_false]
    rw [memRead_ok (inSpace_dg (by omega) s), onAccess_ok, memRead_ok (inSpace_dg (by omega) s), onAccess_ok,
      memRead_ok (inSpace_dg (by omega) s), onAccess_ok, memRead_ok (inSpace_dg (by omega) s), onAccess_ok,
      memRead_ok (inSpace_dg (by omega) s), onAccess_ok]
    rfl
  · exact .inl ⟨h, by simp [execTrnGo, digestLoaded, digestLen, h]⟩

-- # DIG

theorem digitChar_toNat (num k : Nat) : (digitChar (decimalDigit num k)).toNat = 0x30 + num / 10 ^ k % 10 := by
  simp [digitChar, decimalDigit]; omega

/-- Everything the six writes of 42_digits.md R90 do, for the first `n` of them. -/
theorem storeDigits_spec (num : Nat) (s : State) : ∀ n, n ≤ 6 → ∃ m,
    storeDigits num n s = .ok (setFile .code m s) ∧
    (Memory.wf s.dig.code = true → Memory.wf m = true ∧
      ∀ k, k < n → m.read (5 - k) = digitChar (decimalDigit num k)) ∧
    (∀ j, 6 ≤ j → m.read j = s.dig.code.read j) ∧ (∀ c ∈ m, c ∈ s.dig.code ∨ c.1 < 6) := by
  intro n
  induction n with
  | zero => intro _; exact ⟨s.dig.code, rfl, by simp, by simp, fun c h => .inl h⟩
  | succ n ih =>
    intro hn
    obtain ⟨m, h1, h2, h3, h4⟩ := ih (by omega)
    refine ⟨m.write (5 - n) (digitChar (decimalDigit num n)), ?_, ?_, ?_, ?_⟩
    · simp only [storeDigits, h1]
      rw [memWrite_ok _ (inSpace_code (by omega) _)]
      rfl
    · intro hw
      refine ⟨Memory.write_wf _ _ _ (h2 hw).1, fun k hk => ?_⟩
      by_cases hkn : k = n
      · subst hkn; exact Memory.read_write_same _ _ (h2 hw).1
      · rw [Memory.read_write_other (by omega)]; exact (h2 hw).2 k (by omega)
    · intro j hj
      rw [Memory.read_write_other (by omega)]; exact h3 j hj
    · intro c hc
      rcases Memory.mem_write hc with h | h
      · exact h4 c h
      · exact .inr (by omega)

/-- The state after DIG.GO has written `m` (R90). -/
def formattedState (m : Memory) (s : State) : State :=
  { s with dig := { num := BitVec.ofNat 20 (numericCode s.trn.bin), digv := true, code := m } }

/-- `m` is `CODE` after DIG.GO (R90). -/
def IsFormatted (m : Memory) (s : State) : Prop :=
  (Memory.wf s.dig.code = true → Memory.wf m = true ∧
    ∀ k, k < 6 → m.read (5 - k) = digitChar (decimalDigit (numericCode s.trn.bin) k)) ∧
  (∀ j, 6 ≤ j → m.read j = s.dig.code.read j) ∧ ∀ c ∈ m, c ∈ s.dig.code ∨ c.1 < 6

theorem execDigGo_cases (s : State) :
    (s.trn.binv = false ∧ execDigGo s = raise .sequence s) ∨
    (s.trn.binv = true ∧ ∃ m, IsFormatted m s ∧
      execDigGo s = respondOk (BitVec.ofNat 32 (numericCode s.trn.bin)) (formattedState m s)) := by
  cases h : s.trn.binv
  · exact .inl ⟨rfl, by simp [execDigGo, h]⟩
  · obtain ⟨m, h1, h2⟩ := storeDigits_spec (numericCode s.trn.bin) s 6 (by omega)
    refine .inr ⟨rfl, m, h2, ?_⟩
    simp only [execDigGo, h, Bool.not_true, Bool.false_eq_true, if_false]
    rw [show Config.digits = 6 from rfl, h1]
    rfl

theorem execDigRdc_cases (i : Byte) (s : State) :
    (s.dig.digv = false ∧ execDigRdc i s = raise .sequence s) ∨
    (s.dig.digv = true ∧ 5 < i.toNat ∧ execDigRdc i s = raise .range s) ∨
    (s.dig.digv = true ∧ i.toNat ≤ 5 ∧ execDigRdc i s = respondOk ((byteAt .code i.toNat s).setWidth 32) s) := by
  cases h : s.dig.digv
  · exact .inl ⟨rfl, by simp [execDigRdc, h]⟩
  · right
    by_cases h1 : 5 < i.toNat
    · exact .inl ⟨rfl, h1, by simp [execDigRdc, h, indexOperand, h1]⟩
    · exact .inr ⟨rfl, by omega, by
        simp [execDigRdc, h, indexOperand, h1, memRead, inSpace_code (show i.toNat < 6 by omega)]⟩

-- # System

theorem execRdreg_cases (n : Byte) (s : State) :
    execRdreg n s = raise .range s ∨ ∃ d, execRdreg n s = respondOk d s := by
  unfold execRdreg
  cases registerOperand n s with
  | none => exact .inl rfl
  | some d => exact .inr ⟨d, rfl⟩

-- # All instructions

/-- Everything a command can do, in sixteen cases, each with the condition it needs. -/
inductive Effect (i : Instr) (s : State) : Result → Prop
  | refuse (r : Raised) : r = .sequence ∨ r = .range → Effect i s (raise r s)
  | badSymbol (b : Byte) : (symbolOf i).isSome = true → s.b32.st = .run → Effect i s (raise (.invalidCharacter b) s)
  | noRoom : (symbolOf i).isSome = true → s.b32.st = .run → s.outMax = .bytes s.b32.ocnt →
      Effect i s (raise .capacity s)
  | read (d : Data) : (∃ n, i = .rdreg n ∨ i = .b32Rdb n ∨ i = .digRdc n) → Effect i s (respondOk d s)
  | reset : i = .sreset → Effect i s (respondOk 0 (resetRegisters s))
  | start : i = .b32Start → Effect i s (respondOk 0 (openCall s))
  | pad : (symbolOf i).isSome = true → s.b32.st = .run → Effect i s (respondOk 0 (setPad s))
  | fits (v : SymValue) : (symbolOf i).isSome = true → s.b32.st = .run → s.b32.pad = false →
      5 < s.b32.brem.toNat → Effect i s (respondOk 0 (fitsState v s))
  | straddles (v : SymValue) : (symbolOf i).isSome = true → s.b32.st = .run → s.b32.pad = false →
      s.b32.brem.toNat ≤ 5 → s.outMax.holds s.b32.ocnt = true → Effect i s (respondOk 0 (straddlesState v s))
  | close : i = .b32End → s.b32.st = .run → expectedLength s ≤ s.b32.ocnt →
      Effect i s (respondOk (BitVec.ofNat 32 s.b32.ocnt) (closeCall s))
  | flush : i = .b32End → s.b32.st = .run → s.b32.ocnt < expectedLength s → s.outMax.holds s.b32.ocnt = true →
      Effect i s (respondOk (BitVec.ofNat 32 (s.b32.ocnt + 1)) (flushedState s))
  | clear : i = .trnClr → Effect i s
      (respondOk 0 (invalidateCode { s with trn := { s.trn with dgn := 0, off := 0, bin := 0, binv := false } }))
  | push (b : Byte) : i = .trnPush b → s.trn.dgn.toNat < 20 → Effect i s (respondOk 0 (pushedState b s))
  | truncate (o : BitVec 4) (b : BitVec 32) : i = .trnGo → s.trn.dgn.toNat = 20 → IsTruncation o b s →
      Effect i s (respondOk b (truncatedState o b s))
  | format (m : Memory) : i = .digGo → s.trn.binv = true → IsFormatted m s →
      Effect i s (respondOk (BitVec.ofNat 32 (numericCode s.trn.bin)) (formattedState m s))
  | stop (j : Nat) : s.outMax.holds j = false → ¬ Inv s → Effect i s (.fault (.noSuchByte .out j))

theorem exec_effect (i : Instr) (s : State) : Effect i s (exec i s) := by
  rcases instr_shapes i with ⟨n, rfl⟩ | rfl | rfl | rfl | ⟨n, rfl⟩ | rfl | ⟨b, rfl⟩ | rfl | rfl | ⟨n, rfl⟩ | ⟨c, hc⟩
  · change Effect _ s (execRdreg n s)
    rcases execRdreg_cases n s with h | ⟨d, h⟩ <;> rw [h]
    · exact .refuse _ (.inr rfl)
    · exact .read d ⟨n, .inl rfl⟩
  · exact .reset rfl
  · exact .start rfl
  · change Effect _ s (execB32End s)
    rcases execB32End_cases s with ⟨_, h⟩ | ⟨h1, h2, h⟩ | ⟨h1, h2, h3, h⟩ | ⟨h1, h2, h3, h⟩ <;> rw [h]
    · exact .refuse _ (.inl rfl)
    · exact .close rfl h1 h2
    · exact .flush rfl h1 h2 h3
    · refine .stop _ h3 fun hI => ?_
      have := hI.ocntCounts (by simp [h1])
      simp only [expectedLength] at h2
      omega
  · change Effect _ s (execB32Rdb n s)
    rcases execB32Rdb_cases n s with ⟨_, h⟩ | ⟨_, _, h⟩ | ⟨h1, h2, h⟩ | ⟨h1, h2, h3, h⟩ <;> rw [h]
    · exact .refuse _ (.inl rfl)
    · exact .refuse _ (.inr rfl)
    · exact .read _ ⟨n, .inr (.inl rfl)⟩
    · refine .stop _ h3 fun hI => ?_
      simp [holds_of_fits hI.ocntFits h2] at h3
  · exact .clear rfl
  · change Effect _ s (execTrnPush b s)
    rcases execTrnPush_cases b s with ⟨_, h⟩ | ⟨h1, h⟩ <;> rw [h]
    · exact .refuse _ (.inl rfl)
    · exact .push b rfl h1
  · change Effect _ s (execTrnGo s)
    rcases execTrnGo_cases s with ⟨_, h⟩ | ⟨h1, o, b, h2, h⟩ <;> rw [h]
    · exact .refuse _ (.inl rfl)
    · exact .truncate o b rfl h1 h2
  · change Effect _ s (execDigGo s)
    rcases execDigGo_cases s with ⟨_, h⟩ | ⟨h1, m, h2, h⟩ <;> rw [h]
    · exact .refuse _ (.inl rfl)
    · exact .format m rfl h1 h2
  · change Effect _ s (execDigRdc n s)
    rcases execDigRdc_cases n s with ⟨_, h⟩ | ⟨_, _, h⟩ | ⟨_, _, h⟩ <;> rw [h]
    · exact .refuse _ (.inl rfl)
    · exact .refuse _ (.inr rfl)
    · exact .read _ ⟨n, .inr (.inr rfl)⟩
  · rw [exec_symbol hc]
    have hs : (symbolOf i).isSome = true := by simp [hc]
    rcases deliverSymbol_cases c s with ⟨_, h⟩ | ⟨h1, b, h⟩ | ⟨h1, h⟩ | ⟨h1, h2, v, _, h⟩ <;> rw [h]
    · exact .refuse _ (.inl rfl)
    · exact .badSymbol b hs h1
    · exact .pad hs h1
    · rcases acceptValue_cases v s with ⟨h3, h⟩ | ⟨_, h4, h⟩ | ⟨h3, h4, h⟩ | ⟨h3, ⟨n, h5, h6⟩, h⟩ <;> rw [h]
      · exact .fits v hs h1 h2 h3
      · exact .noRoom hs h1 h4
      · exact .straddles v hs h1 h2 h3 h4
      · refine .stop _ h3 fun hI => ?_
        have := hI.ocntFits
        simp only [h5, Capacity.fits, decide_eq_true_eq] at this
        omega

end Sys2Proof.Machine
end

