-- ==== Sys2Proof/Laws/HostFlow.lean ====
section
/-! SUPPORT. The driver: one command issued, command lists cut in two, the failures it can have; and the rounding. -/

namespace Sys2Proof.Machine

/-- A command answered `OK` goes on with its data. -/
theorem issue_ok {w : CommandWord} {i : Instr} {s t : State} {d : Data} (hd : decode w = .ok i)
    (he : exec i { s with inputs := [] } = .next t) (hr : t.resp = some { fc := .ok, data := d }) :
    issue w s = .ok (d, t) := by
  have hs : step { s with inputs := [.command w] } = .next t := by
    rw [step_command (s := { s with inputs := [.command w] }) rfl, executeWord_ok hd]; exact he
  simp [issue, hs, hr]

/-- A command answered `InvalidCharacter` ends the sequence with the offending character. -/
theorem issue_invalid {w : CommandWord} {i : Instr} {s t : State} {d : Data} (hd : decode w = .ok i)
    (he : exec i { s with inputs := [] } = .next t) (hr : t.resp = some { fc := .invalidCharacter, data := d }) :
    issue w s = .error (.invalidCharacter d.toNat) := by
  have hs : step { s with inputs := [.command w] } = .next t := by
    rw [step_command (s := { s with inputs := [.command w] }) rfl, executeWord_ok hd]; exact he
  simp [issue, hs, hr]

theorem issueAll_cons_ok {w : CommandWord} {ws : List CommandWord} {s t u : State} {d : Data} {ds : List Data}
    (h : issue w s = .ok (d, t)) (h' : issueAll ws t = .ok (ds, u)) : issueAll (w :: ws) s = .ok (d :: ds, u) := by
  simp [issueAll, h, h']

theorem issueAll_cons_error {w : CommandWord} {ws : List CommandWord} {s t : State} {d : Data} {f : HostFailure}
    (h : issue w s = .ok (d, t)) (h' : issueAll ws t = .error f) : issueAll (w :: ws) s = .error f := by
  simp [issueAll, h, h']

/-- Two command lists, one after the other. -/
theorem issueAll_append (ws vs : List CommandWord) (s : State) :
    issueAll (ws ++ vs) s =
      match issueAll ws s with
      | .error f => .error f
      | .ok (ds, t) =>
        match issueAll vs t with
        | .error f => .error f
        | .ok (es, u) => .ok (ds ++ es, u) := by
  induction ws generalizing s with
  | nil =>
    simp only [List.nil_append, issueAll]
    cases issueAll vs s <;> rfl
  | cons w ws ih =>
    simp only [List.cons_append, issueAll, ih]
    rcases issue w s with f | ⟨d, t⟩
    · rfl
    · dsimp only
      rcases issueAll ws t with f | ⟨ds, u⟩
      · rfl
      · dsimp only
        rcases issueAll vs u with f | ⟨es, x⟩ <;> rfl

/-- The failures of the driver are the block's own: no command list fails for its instant or its length. -/
theorem issueAll_failure {ws : List CommandWord} {s : State} {f : HostFailure} (h : issueAll ws s = .error f) :
    f ≠ .timeOutOfRange ∧ f ≠ .unreadableLength := by
  have one : ∀ {w : CommandWord} {s : State} {f : HostFailure}, issue w s = .error f →
      f ≠ .timeOutOfRange ∧ f ≠ .unreadableLength := by
    intro w s f h
    unfold issue at h
    repeat' split at h
    all_goals cases h <;> exact ⟨nofun, nofun⟩
  induction ws generalizing s with
  | nil => cases h
  | cons w ws ih =>
    simp only [issueAll] at h
    split at h
    · rename_i _ hw; cases h; exact one hw
    · split at h
      · rename_i _ hws; cases h; exact ih hws
      · cases h

/-- Rounding goes down or up, by at most half a second (44_host_contract.md R103). -/
theorem unixNow_cases (tie : Config.RoundTie) (now : Rat) :
    (unixNow tie now = now.floor ∧ now - now.floor ≤ 1 / 2) ∨
    (unixNow tie now = now.floor + 1 ∧ 1 / 2 ≤ now - now.floor) := by
  simp only [unixNow]
  split
  · rename_i h; exact .inl ⟨rfl, h.le⟩
  · rename_i h
    split
    · rename_i h'; exact .inr ⟨rfl, h'.le⟩
    · rename_i h'
      cases tie
      · exact .inr ⟨rfl, not_lt.mp h⟩
      · dsimp only
        split
        · exact .inl ⟨rfl, not_lt.mp h'⟩
        · exact .inr ⟨rfl, not_lt.mp h⟩

end Sys2Proof.Machine
end

