-- ==== Sys2Proof/Laws/PerInstr.lean ====
section
/-! SUPPORT. Family `Encoding`: every instruction's word selects its own row of the opcode map (30_encoding.md R48). -/

namespace Sys2Proof.Laws.Encoding

/-- The row's mask and pattern in the opcode map (R48); a SYM8 row is one word of row `B32.SYM`. -/
def row : Instr → CommandWord × CommandWord
  | .rdreg _ => (0xFF00, 0x0100)
  | .sreset => (0xFFFF, 0x0200)
  | .b32Start => (0xFFFF, 0x1000)
  | .b32End => (0xFFFF, 0x1200)
  | .b32Rdb _ => (0xFF00, 0x1300)
  | .trnClr => (0xFFFF, 0x2000)
  | .trnPush _ => (0xFF00, 0x2100)
  | .trnGo => (0xFFFF, 0x2200)
  | .digGo => (0xFFFF, 0x3000)
  | .digRdc _ => (0xFF00, 0x3100)
  | _ => (0xFF00, 0x1100)

/-- The word of a well-formed instruction selects its row. -/
def Statement (i : Instr) : Prop := i.wf = true → encode i &&& (row i).1 = (row i).2

theorem rdreg (n : Byte) : Statement (.rdreg n) := fun _ => commandWord_masked _ n
theorem sreset : Statement .sreset := fun _ => rfl
theorem b32Start : Statement .b32Start := fun _ => rfl
theorem b32Sym (sym : Byte) : Statement (.b32Sym sym) := fun _ => commandWord_masked _ sym
theorem b32End : Statement .b32End := fun _ => rfl
theorem b32Rdb (i : Byte) : Statement (.b32Rdb i) := fun _ => commandWord_masked _ i
theorem trnClr : Statement .trnClr := fun _ => rfl
theorem trnPush (byte : Byte) : Statement (.trnPush byte) := fun _ => commandWord_masked _ byte
theorem trnGo : Statement .trnGo := fun _ => rfl
theorem digGo : Statement .digGo := fun _ => rfl
theorem digRdc (i : Byte) : Statement (.digRdc i) := fun _ => commandWord_masked _ i
theorem symUpperA : Statement .symUpperA := fun _ => rfl
theorem symUpperB : Statement .symUpperB := fun _ => rfl
theorem symUpperC : Statement .symUpperC := fun _ => rfl
theorem symUpperD : Statement .symUpperD := fun _ => rfl
theorem symUpperE : Statement .symUpperE := fun _ => rfl
theorem symUpperF : Statement .symUpperF := fun _ => rfl
theorem symUpperG : Statement .symUpperG := fun _ => rfl
theorem symUpperH : Statement .symUpperH := fun _ => rfl
theorem symUpperI : Statement .symUpperI := fun _ => rfl
theorem symUpperJ : Statement .symUpperJ := fun _ => rfl
theorem symUpperK : Statement .symUpperK := fun _ => rfl
theorem symUpperL : Statement .symUpperL := fun _ => rfl
theorem symUpperM : Statement .symUpperM := fun _ => rfl
theorem symUpperN : Statement .symUpperN := fun _ => rfl
theorem symUpperO : Statement .symUpperO := fun _ => rfl
theorem symUpperP : Statement .symUpperP := fun _ => rfl
theorem symUpperQ : Statement .symUpperQ := fun _ => rfl
theorem symUpperR : Statement .symUpperR := fun _ => rfl
theorem symUpperS : Statement .symUpperS := fun _ => rfl
theorem symUpperT : Statement .symUpperT := fun _ => rfl
theorem symUpperU : Statement .symUpperU := fun _ => rfl
theorem symUpperV : Statement .symUpperV := fun _ => rfl
theorem symUpperW : Statement .symUpperW := fun _ => rfl
theorem symUpperX : Statement .symUpperX := fun _ => rfl
theorem symUpperY : Statement .symUpperY := fun _ => rfl
theorem symUpperZ : Statement .symUpperZ := fun _ => rfl
theorem symLowerA : Statement .symLowerA := fun _ => rfl
theorem symLowerB : Statement .symLowerB := fun _ => rfl
theorem symLowerC : Statement .symLowerC := fun _ => rfl
theorem symLowerD : Statement .symLowerD := fun _ => rfl
theorem symLowerE : Statement .symLowerE := fun _ => rfl
theorem symLowerF : Statement .symLowerF := fun _ => rfl
theorem symLowerG : Statement .symLowerG := fun _ => rfl
theorem symLowerH : Statement .symLowerH := fun _ => rfl
theorem symLowerI : Statement .symLowerI := fun _ => rfl
theorem symLowerJ : Statement .symLowerJ := fun _ => rfl
theorem symLowerK : Statement .symLowerK := fun _ => rfl
theorem symLowerL : Statement .symLowerL := fun _ => rfl
theorem symLowerM : Statement .symLowerM := fun _ => rfl
theorem symLowerN : Statement .symLowerN := fun _ => rfl
theorem symLowerO : Statement .symLowerO := fun _ => rfl
theorem symLowerP : Statement .symLowerP := fun _ => rfl
theorem symLowerQ : Statement .symLowerQ := fun _ => rfl
theorem symLowerR : Statement .symLowerR := fun _ => rfl
theorem symLowerS : Statement .symLowerS := fun _ => rfl
theorem symLowerT : Statement .symLowerT := fun _ => rfl
theorem symLowerU : Statement .symLowerU := fun _ => rfl
theorem symLowerV : Statement .symLowerV := fun _ => rfl
theorem symLowerW : Statement .symLowerW := fun _ => rfl
theorem symLowerX : Statement .symLowerX := fun _ => rfl
theorem symLowerY : Statement .symLowerY := fun _ => rfl
theorem symLowerZ : Statement .symLowerZ := fun _ => rfl
theorem symDigit2 : Statement .symDigit2 := fun _ => rfl
theorem symDigit3 : Statement .symDigit3 := fun _ => rfl
theorem symDigit4 : Statement .symDigit4 := fun _ => rfl
theorem symDigit5 : Statement .symDigit5 := fun _ => rfl
theorem symDigit6 : Statement .symDigit6 := fun _ => rfl
theorem symDigit7 : Statement .symDigit7 := fun _ => rfl
theorem symPad : Statement .symPad := fun _ => rfl

end Sys2Proof.Laws.Encoding
end

