-- ==== Sys2Proof/Tests/Slice0.lean ====
section
/-! SUPPORT. Tests: the WellFormed smoke, every constructor's decoding by words written out from 30_encoding.md R48 and
R53, one step per instruction with results taken from the spec's worked examples (95_test_vectors.md), and a witness for
the hypotheses of every statement. -/

namespace Sys2Proof.Tests

open Sys2Proof Sys2Proof.Machine Sys2Proof.Config

-- # WellFormed

/-- A letter's code has a row of its own, so `b32Sym` does not carry it. -/
theorem test_wf_refuses_letter : (Instr.b32Sym 0x41).wf = false := by decide

theorem test_wf_refuses_padding : (Instr.b32Sym 0x3D).wf = false := by decide

theorem test_wf_accepts_none : (Instr.b32Sym 0x31).wf = true ∧ (Instr.b32Sym 0xFF).wf = true := by decide

-- # Decoding, words from R48 (commands) and R53, R54 (symbol codes)

def decoded (words : List CommandWord) : List (Option Instr) :=
  words.map fun w => match decode w with | .ok i => some i | .error _ => none

theorem test_decode_commands :
    decoded ([0b0000000100001010, 0b0000001000000000, 0b0001000000000000, 0b0001000100110001] ++
      [0b0001001000000000, 0b0001001100000011, 0b0010000000000000, 0b0010000101011010] ++
      [0b0010001000000000, 0b0011000000000000, 0b0011000100000101]) =
    [some (.rdreg 0x0A), some .sreset, some .b32Start, some (.b32Sym 0x31)] ++
      [some .b32End, some (.b32Rdb 3), some .trnClr, some (.trnPush 0x5A)] ++
      [some .trnGo, some .digGo, some (.digRdc 5)] := by decide

theorem test_decode_upper :
    decoded
      ([0x1141, 0x1142, 0x1143, 0x1144, 0x1145, 0x1146, 0x1147, 0x1148, 0x1149] ++
      [0x114A, 0x114B, 0x114C, 0x114D, 0x114E, 0x114F, 0x1150, 0x1151, 0x1152] ++
      [0x1153, 0x1154, 0x1155, 0x1156, 0x1157, 0x1158, 0x1159, 0x115A]) =
    [some .symUpperA, some .symUpperB, some .symUpperC, some .symUpperD, some .symUpperE] ++
    [some .symUpperF, some .symUpperG, some .symUpperH, some .symUpperI, some .symUpperJ] ++
    [some .symUpperK, some .symUpperL, some .symUpperM, some .symUpperN, some .symUpperO] ++
    [some .symUpperP, some .symUpperQ, some .symUpperR, some .symUpperS, some .symUpperT] ++
    [some .symUpperU, some .symUpperV, some .symUpperW, some .symUpperX, some .symUpperY] ++
    [some .symUpperZ] := by
  decide

theorem test_decode_lower :
    decoded
      ([0x1161, 0x1162, 0x1163, 0x1164, 0x1165, 0x1166, 0x1167, 0x1168, 0x1169] ++
      [0x116A, 0x116B, 0x116C, 0x116D, 0x116E, 0x116F, 0x1170, 0x1171, 0x1172] ++
      [0x1173, 0x1174, 0x1175, 0x1176, 0x1177, 0x1178, 0x1179, 0x117A]) =
    [some .symLowerA, some .symLowerB, some .symLowerC, some .symLowerD, some .symLowerE] ++
    [some .symLowerF, some .symLowerG, some .symLowerH, some .symLowerI, some .symLowerJ] ++
    [some .symLowerK, some .symLowerL, some .symLowerM, some .symLowerN, some .symLowerO] ++
    [some .symLowerP, some .symLowerQ, some .symLowerR, some .symLowerS, some .symLowerT] ++
    [some .symLowerU, some .symLowerV, some .symLowerW, some .symLowerX, some .symLowerY] ++
    [some .symLowerZ] := by
  decide

theorem test_decode_digits :
    decoded
      ([0x1132, 0x1133, 0x1134, 0x1135, 0x1136, 0x1137, 0x113D]) =
    [some .symDigit2, some .symDigit3, some .symDigit4, some .symDigit5, some .symDigit6] ++
    [some .symDigit7, some .symPad] := by
  decide

/-- R49: unassigned `op`, and a non-zero `arg` on each command that takes none. -/
theorem test_decode_refuses :
    decoded [0x0000, 0xFFFF, 0x0300, 0x1400, 0x2300, 0x3200, 0x0201, 0x1001, 0x1201, 0x2001, 0x2201, 0x3001] =
    List.replicate 12 none := by decide

/-- 0x1001 is refused for its operand, 0x0000 for its operation. -/
theorem test_decode_error_names :
    (match decode 0x1001 with | .error e => some e | .ok _ => none) = some .operandNotZero ∧
    (match decode 0x0000 with | .error e => some e | .ok _ => none) = some .unassignedOp := by decide

/-- The rows of the opcode map do not overlap (R48). -/
theorem test_rows_disjoint :
    commandRows.Pairwise fun r r' => r.pattern &&& (r.mask &&& r'.mask) ≠ r'.pattern &&& (r.mask &&& r'.mask) := by
  decide

theorem test_decode_table_word :
    decodeTableWord 16 0x2200 = some .trnGo ∧ decodeTableWord 8 0x3D = some .symPad ∧
    decodeTableWord 8 0x79 = some .symLowerY ∧ decodeTableWord 16 0x0000 = none := by decide

-- # Small states

def nextOf (r : Result) : Option State :=
  match r with
  | .next t => some t
  | .fault _ => none
  | .refused _ => none

/-- What a command answers, or none where the machine stops. -/
def respOf (r : Result) : Option Response := (nextOf r).bind fun t => t.resp

def ok (d : Data) : Option Response := some { fc := .ok, data := d }

def refused (fc : FaultCode) : Option Response := some { fc := fc, data := 0 }

/-- The reset state with the B32 unit in `RUN`. -/
def running : State := { State.reset with b32 := { B32Regs.reset with st := .run } }

/-- P6 before its fourth symbol: `OUT_MAX` = 1, one byte emitted, one bit free. -/
def full : State :=
  { running with
    b32 := { B32Regs.reset with st := .run, cur := 0x6E, brem := 1, scnt := 3, ocnt := 1, out := [(0, 0x66)] },
    outMax := .bytes 1 }

/-- P2 after its fault. -/
def faulted : State :=
  { State.reset with
    b32 := { B32Regs.reset with
      st := .fault, cur := 0x40, brem := 6, scnt := 2, ocnt := 1, pad := true, errcode := 1, errchar := 0x3D,
      out := [(0, 0x66)] } }

/-- P1 after B32.END. -/
def decodedState : State :=
  { State.reset with
    b32 := { B32Regs.reset with
      st := .done, scnt := 8, ocnt := 5, out := [(0, 0x66), (1, 0x6F), (2, 0x6F), (3, 0x62), (4, 0x61)] } }

/-- The digest of P3. -/
def digestCells : Memory :=
  [(0, 0x1F), (1, 0x86), (2, 0x98), (3, 0x69), (4, 0x0E), (5, 0x02), (6, 0xCA), (7, 0x16), (8, 0x61), (9, 0x85)] ++
  [(10, 0x50), (11, 0xEF), (12, 0x7F), (13, 0x19), (14, 0xDA), (15, 0x8E), (16, 0x94), (17, 0x5B), (18, 0x55)] ++
  [(19, 0x5A)]

/-- P3 before TRN.GO. -/
def loaded : State := { State.reset with trn := { TrnRegs.reset with dg := digestCells, dgn := 20 } }

/-- P3 before DIG.GO. -/
def truncated : State :=
  { State.reset with trn := { dg := digestCells, dgn := 20, off := 10, bin := 0x50EF7F19, binv := true } }

/-- P3 after DIG.GO. -/
def formatted : State :=
  { truncated with
    dig := {
      num := 872921, digv := true, code := [(0, 0x38), (1, 0x37), (2, 0x32), (3, 0x39), (4, 0x32), (5, 0x31)] } }

/-- One byte beyond `OUT_MAX`: a state no run reaches (10_state.md R27 item 5). -/
def beyond : State := { running with b32 := { B32Regs.reset with st := .run, brem := 1, ocnt := 65 } }

theorem witness_inv_reset : Inv State.reset := by constructor <;> decide
theorem witness_inv_running : Inv running := by constructor <;> decide
theorem witness_inv_full : Inv full := by constructor <;> decide
theorem witness_inv_faulted : Inv faulted := by constructor <;> decide
theorem witness_inv_decoded : Inv decodedState := by constructor <;> decide
theorem witness_inv_formatted : Inv formatted := by constructor <;> decide

-- # One step per instruction

/-- 43_system.md R97's example, and P2's and P3's register reads. -/
theorem test_rdreg_values :
    [0x00, 0x01, 0x02].map (fun n => respOf (exec (.rdreg n)
      { running with b32 := { B32Regs.reset with st := .run, cur := 0x60, brem := 3, scnt := 1 } })) =
      [ok 1, ok 0x60, ok 3] ∧
    [0x00, 0x03, 0x04, 0x05].map (fun n => respOf (exec (.rdreg n) faulted)) = [ok 7, ok 2, ok 1, ok 0x13D] ∧
    [0x08, 0x09, 0x0A, 0x10, 0x11].map (fun n => respOf (exec (.rdreg n) formatted)) =
      [ok 0x114, ok 0xA, ok 0x50EF7F19, ok 1, ok 0xD51D9] := by decide

/-- R97: unassigned numbers. -/
theorem test_rdreg_range :
    [0x06, 0x07, 0x0B, 0x0F, 0x12, 0xFF].map (fun n => respOf (exec (.rdreg n) State.reset)) =
    List.replicate 6 (refused .range) := by decide

/-- 43_system.md R98's example: SRESET leaves FAULT and clears the record. -/
theorem test_sreset :
    (nextOf (exec .sreset faulted)).map (fun t => (t.b32.st, t.b32.errcode, t.b32.errchar, t.b32.brem, t.resp)) =
    some (.idle, 0, 0, 8, ok 0) := by decide

/-- 40_b32_decode.md R65's example, from FAULT. -/
theorem test_b32Start :
    (nextOf (exec .b32Start faulted)).map (fun t => (t.b32.st, t.b32.cur, t.b32.brem, t.b32.pad, t.b32.errcode)) =
    some (.run, 0, 8, false, 0) := by decide

/-- R69's examples, and 60_exceptions.md R127: with padding pending `=` is reported, not the symbol. -/
theorem test_b32Sym_invalid :
    [0x31, 0x30, 0x38, 0x39, 0x20, 0x00, 0xFF].map (fun c => respOf (exec (.b32Sym c) running)) =
      [0x31, 0x30, 0x38, 0x39, 0x20, 0x00, 0xFF].map (fun d => some { fc := .invalidCharacter, data := d }) ∧
    respOf (exec (.b32Sym 0x31) { running with b32 := { running.b32 with pad := true } }) =
      some { fc := .invalidCharacter, data := 0x3D } := by decide

/-- R127: Sequence comes before InvalidCharacter. -/
theorem test_b32Sym_sequence : respOf (exec (.b32Sym 0x31) decodedState) = refused .sequence := by decide

/-- P1: the decoded length. -/
theorem test_b32End :
    respOf (exec .b32End { decodedState with b32 := { decodedState.b32 with st := .run } }) = ok 5 ∧
    respOf (exec .b32End faulted) = refused .sequence := by decide

/-- P1: the reads, and the one past the end. -/
theorem test_b32Rdb :
    [0, 1, 3, 4, 5].map (fun i => respOf (exec (.b32Rdb i) decodedState)) =
    [ok 0x66, ok 0x6F, ok 0x62, ok 0x61, refused .range] := by decide

theorem test_trnClr :
    (nextOf (exec .trnClr formatted)).map (fun t => (t.trn.dgn, t.trn.bin, t.trn.binv, t.dig.num, t.dig.digv)) =
    some (0, 0, false, 0, false) := by decide

/-- R81's example, and the 21st byte. -/
theorem test_trnPush :
    (nextOf (exec (.trnPush 0x1F) State.reset)).map (fun t => (t.trn.dg, t.trn.dgn)) = some ([(0, 0x1F)], 1) ∧
    respOf (exec (.trnPush 0x1F) loaded) = refused .sequence := by decide

/-- P3. -/
theorem test_trnGo :
    (nextOf (exec .trnGo loaded)).map (fun t => (t.trn.off, t.trn.bin, t.trn.binv, t.resp)) =
    some (10, 0x50EF7F19, true, ok 0x50EF7F19) := by decide

/-- P5: the top bit of the first byte is masked, the window ends at byte 18. -/
theorem test_trnGo_masks :
    (nextOf (exec .trnGo { loaded with trn := { loaded.trn with dg := [(15, 0x80), (18, 0x2A), (19, 0x0F)] } })).map
      (fun t => (t.trn.off, t.trn.bin)) = some (15, 42) := by decide

/-- P3. -/
theorem test_digGo :
    (nextOf (exec .digGo truncated)).map (fun t => (t.dig.num, t.dig.code, t.resp)) =
    some (872921, [(0, 0x38), (1, 0x37), (2, 0x32), (3, 0x39), (4, 0x32), (5, 0x31)], ok 0xD51D9) := by decide

/-- P5: leading zeros. -/
theorem test_digGo_zeros :
    (nextOf (exec .digGo { truncated with trn := { truncated.trn with bin := 42 } })).map (fun t => t.dig.code) =
    some [(0, 0x30), (1, 0x30), (2, 0x30), (3, 0x30), (4, 0x34), (5, 0x32)] := by decide

/-- P3. -/
theorem test_digRdc :
    [0, 1, 5, 6].map (fun i => respOf (exec (.digRdc i) formatted)) = [ok 0x38, ok 0x37, ok 0x31, refused .range] ∧
    respOf (exec (.digRdc 0) truncated) = refused .sequence := by decide

/-- `CUR` after each symbol on an empty byte: the symbol's value times 8 (R70). -/
def curAfter (symbols : List Instr) : List (Option Byte) :=
  symbols.map fun i => (nextOf (exec i running)).map fun t => t.b32.cur

/-- The values of R53 for the upper rows. -/
theorem test_symbols_upper :
    curAfter
      ([.symUpperA, .symUpperB, .symUpperC, .symUpperD, .symUpperE, .symUpperF, .symUpperG] ++
       [.symUpperH, .symUpperI, .symUpperJ, .symUpperK, .symUpperL, .symUpperM, .symUpperN] ++
       [.symUpperO, .symUpperP, .symUpperQ, .symUpperR, .symUpperS, .symUpperT, .symUpperU] ++
       [.symUpperV, .symUpperW, .symUpperX, .symUpperY, .symUpperZ]) =
    [some 0b00000000, some 0b00001000, some 0b00010000, some 0b00011000, some 0b00100000, some 0b00101000] ++
    [some 0b00110000, some 0b00111000, some 0b01000000, some 0b01001000, some 0b01010000, some 0b01011000] ++
    [some 0b01100000, some 0b01101000, some 0b01110000, some 0b01111000, some 0b10000000, some 0b10001000] ++
    [some 0b10010000, some 0b10011000, some 0b10100000, some 0b10101000, some 0b10110000, some 0b10111000] ++
    [some 0b11000000, some 0b11001000] := by
  decide

/-- The values of R53 for the lower rows. -/
theorem test_symbols_lower :
    curAfter
      ([.symLowerA, .symLowerB, .symLowerC, .symLowerD, .symLowerE, .symLowerF, .symLowerG] ++
       [.symLowerH, .symLowerI, .symLowerJ, .symLowerK, .symLowerL, .symLowerM, .symLowerN] ++
       [.symLowerO, .symLowerP, .symLowerQ, .symLowerR, .symLowerS, .symLowerT, .symLowerU] ++
       [.symLowerV, .symLowerW, .symLowerX, .symLowerY, .symLowerZ]) =
    [some 0b00000000, some 0b00001000, some 0b00010000, some 0b00011000, some 0b00100000, some 0b00101000] ++
    [some 0b00110000, some 0b00111000, some 0b01000000, some 0b01001000, some 0b01010000, some 0b01011000] ++
    [some 0b01100000, some 0b01101000, some 0b01110000, some 0b01111000, some 0b10000000, some 0b10001000] ++
    [some 0b10010000, some 0b10011000, some 0b10100000, some 0b10101000, some 0b10110000, some 0b10111000] ++
    [some 0b11000000, some 0b11001000] := by
  decide

/-- The values of R53 for the digits rows. -/
theorem test_symbols_digits :
    curAfter
      ([.symDigit2, .symDigit3, .symDigit4, .symDigit5, .symDigit6, .symDigit7]) =
    [some 0b11010000, some 0b11011000, some 0b11100000, some 0b11101000, some 0b11110000, some 0b11111000] := by
  decide

/-- R68. -/
theorem test_symPad :
    (nextOf (exec .symPad running)).map (fun t => (t.b32.pad, t.b32.scnt, t.b32.st, t.resp)) =
    some (true, 0, .run, ok 0) := by decide

/-- R71's example: 'Z' on CUR = 0x60, BREM = 3. -/
theorem test_straddle :
    (nextOf (exec .symUpperZ { running with b32 := { running.b32 with cur := 0x60, brem := 3, scnt := 1 } })).map
      (fun t => (t.b32.out, t.b32.ocnt, t.b32.cur, t.b32.brem, t.b32.scnt)) =
    some ([(0, 0x66)], 1, 0x40, 6, 2) := by decide

/-- R71 note (3): BREM = 5 completes the byte exactly. -/
theorem test_straddle_exact :
    (nextOf (exec .symUpperB { running with b32 := { running.b32 with cur := 0x60, brem := 5, scnt := 7, ocnt := 4 } })).map
      (fun t => (t.b32.out, t.b32.ocnt, t.b32.cur, t.b32.brem)) =
    some ([(4, 0x61)], 5, 0, 8) := by decide

/-- P6: no room. -/
theorem test_capacity :
    (nextOf (exec .symUpperW full)).map (fun t => (t.b32.st, t.b32.errcode, t.b32.cur, t.b32.ocnt, t.resp)) =
    some (.fault, 5, 0x6E, 1, refused .capacity) := by decide

/-- P2: something after padding. -/
theorem test_after_padding :
    (nextOf (exec .symUpperX { faulted with b32 := { faulted.b32 with st := .run, errcode := 0, errchar := 0 } })).map
      (fun t => (t.b32, t.resp)) =
    some (faulted.b32, some { fc := .invalidCharacter, data := 0x3D }) := by decide

/-- 60_exceptions.md R124. -/
theorem test_illegal_word :
    respOf (executeWord 0xFFFF running) = some { fc := .illegalCommand, data := 0x0000FFFF } := by decide

/-- The response as a 36-bit word (30_encoding.md R46). -/
theorem test_response_word : responseWord { fc := .invalidCharacter, data := 0x3D } = 0x10000003D := by decide

theorem test_fetch_word :
    respOf (step (State.reset.withFetchWord 16 0x1000)) = ok 0 ∧
    respOf (step (State.reset.withFetchWord 8 0x41)) = refused .sequence := by decide

-- # The host's contract, 95_test_vectors.md section 6

/-- V-EXP-1 to V-EXP-4. -/
theorem test_expiry :
    [100, 90, 1194 / 10, 1196 / 10].map (expiryUtc .halfEven) =
    [119999 / 1000, 119999 / 1000, 119999 / 1000, 149999 / 1000] := by decide +kernel

/-- 44_host_contract.md R104's examples. -/
theorem test_time_step :
    timeStep .halfUp 100 = 3 ∧ timeStep .halfEven 101 = 3 ∧ timeStep .halfUp 130 = 4 := by decide +kernel

/-- 92_eei_decisions.md D22 by R103 and R109: the half second before 1970 rounds to 0, in step 0, which ends at 29.999 s. -/
theorem test_before_epoch :
    [unixNow .halfUp (-1 / 2), unixNow .halfEven (-1 / 2), unixNow .halfUp (-1 / 4)] = [0, 0, 0] ∧
    unixNow .halfUp (-3 / 4) = -1 ∧ timeStep .halfEven (-1 / 2) = 0 ∧
    expiryUtc .halfEven (-1 / 2) = 29999 / 1000 := by decide +kernel

/-- V-EXP-8, V-EXP-10: the two readings of a tie. -/
theorem test_ties :
    [unixNow .halfUp (1005 / 10), unixNow .halfEven (1005 / 10), unixNow .halfUp (1205 / 10)] = [101, 100, 121] ∧
    unixNow .halfEven (1205 / 10) = 120 := by decide +kernel

/-- 44_host_contract.md R105's example. -/
theorem test_moving_factor : movingFactor 41152263 = [0, 0, 0, 0, 0x02, 0x73, 0xEF, 0x07] := by decide

/-- R75: the inner `=` is the offending character; R78's "77" and "MZ 1". -/
theorem test_whole_decode :
    (match wholeDecode [0x4D, 0x5A, 0x3D, 0x58] with | .error c => some c | .ok _ => none) = some 0x3D ∧
    (match wholeDecode [0x37, 0x37] with | .ok b => some b | .error _ => none) = some [0xFF] ∧
    (match wholeDecode [0x4D, 0x5A, 0x20, 0x31] with | .error c => some c | .ok _ => none) = some 0x20 := by decide

-- # Witnesses: the hypotheses of every statement can be met together

theorem witness_DecodeOfEncode : (Instr.trnPush 0xFF).wf = true ∧ Instr.symPad.wf = true := by decide

theorem witness_EncodeOfDecode : decode 0x31FF = .ok (.digRdc 0xFF) := by rfl

theorem witness_IllegalWordsAreRefused :
    (IllegalWord 0x0000 ∧ IllegalWord 0xFFFF ∧ IllegalWord 0x1001 ∧ IllegalWord 0x30FF) ∧
    { State.reset with inputs := [.command 0x1001] }.inputs = .command 0x1001 :: [] ∧
    ¬ IllegalWord 0x0100 ∧ ¬ IllegalWord 0x1000 ∧ ¬ IllegalWord 0x31FF := by
  simp [IllegalWord]

theorem witness_StepRunsDecodedCommand :
    { State.reset with inputs := [.command 0x114D] }.inputs = .command 0x114D :: [] ∧
    decode 0x114D = .ok .symUpperM := ⟨rfl, rfl⟩

theorem witness_SymbolRowsMeanSymbolCommand :
    symbolOf .symPad = some 0x3D ∧ symbolOf .symUpperA = some 0x41 ∧ symbolOf (.b32Sym 0xFF) = some 0xFF := by decide

/-- The classes at the ends of every range of R55. -/
theorem witness_InvalidSymbolCodes :
    [0x00, 0x31, 0x38, 0x3C, 0x3E, 0x40, 0x5B, 0x60, 0x7B, 0xFF].map lookup = List.replicate 10 .none ∧
    [0x32, 0x37, 0x3D, 0x41, 0x5A, 0x61, 0x7A].map lookup =
      [.value 26, .value 31, .pad, .value 0, .value 25, .value 0, .value 25] ∧
    running.b32.st = .run ∧ running.b32.pad = false := by decide

theorem witness_LettersAreCaseInsensitive :
    (symbolOf .symUpperA = some 0x41 ∧ symbolOf .symLowerA = some (0x41 + 0x20)) ∧
    (symbolOf .symUpperZ = some 0x5A ∧ symbolOf .symLowerZ = some (0x5A + 0x20)) := by decide

theorem witness_ResetValuesAfterReset : { faulted with inputs := [.reset] }.inputs = .reset :: [] := rfl

theorem witness_HardwareResetGivesNoResponse : { faulted with inputs := [.reset] }.inputs = .reset :: [] := rfl

theorem witness_IdleBlockStaysAsItIs : State.reset.inputs = [] := rfl

theorem witness_SymbolOutsideRunIsRefused :
    symbolOf .symUpperA = some 0x41 ∧ State.reset.b32.st ≠ .run ∧ decodedState.b32.st ≠ .run ∧
    faulted.b32.st ≠ .run := by decide

theorem witness_SymbolAfterPaddingFaults :
    symbolOf .symUpperX = some 0x58 ∧ { running.b32 with pad := true }.st = .run ∧
    { running.b32 with pad := true }.pad = true ∧ (0x58 : Byte) ≠ 0x3D := by decide

theorem witness_PaddingIsAccepted : symbolOf .symPad = some 0x3D ∧ running.b32.st = .run := by decide

theorem witness_InvalidSymbolFaults :
    symbolOf (.b32Sym 0x31) = some 0x31 ∧ running.b32.st = .run ∧ running.b32.pad = false ∧
    lookup 0x31 = .none := by decide

/-- At BREM = 6 and BREM = 8, the ends of the range. -/
theorem witness_FittingValueIsPacked :
    symbolOf .symUpperM = some 0x4D ∧ lookup 0x4D = .value 12 ∧ running.b32.st = .run ∧ running.b32.pad = false ∧
    5 < running.b32.brem.toNat ∧ 5 < { running.b32 with brem := 6 }.brem.toNat := by decide

/-- At BREM = 1 and BREM = 5, with room and without. -/
theorem witness_StraddlingValueIsPacked :
    symbolOf .symUpperW = some 0x57 ∧ lookup 0x57 = .value 22 ∧ full.b32.st = .run ∧ full.b32.pad = false ∧
    full.b32.brem.toNat ≤ 5 ∧ full.outMax = .bytes full.b32.ocnt ∧
    { running.b32 with brem := 5 }.brem.toNat ≤ 5 ∧ running.outMax.holds running.b32.ocnt = true := by decide

theorem witness_EndClosesTheCall :
    State.reset.b32.st ≠ .run ∧ (full.b32.st = .run ∧ full.b32.scnt * 5 / 8 ≤ full.b32.ocnt) ∧
    { running.b32 with scnt := 2 }.ocnt < { running.b32 with scnt := 2 }.scnt * 5 / 8 ∧
    running.outMax.holds running.b32.ocnt = true := by decide

theorem witness_FinalFlushNeverFires : Inv full ∧ full.b32.st = .run := ⟨witness_inv_full, rfl⟩

theorem witness_RdbReadsTheSecret :
    faulted.b32.st ≠ .done ∧ decodedState.b32.st = .done ∧ decodedState.b32.ocnt ≤ (5 : Byte).toNat ∧
    (4 : Byte).toNat < decodedState.b32.ocnt ∧ decodedState.outMax.fits decodedState.b32.ocnt = true := by decide

/-- At DGN = 0, 19 and 20. -/
theorem witness_PushLoadsTheNextDigestByte :
    State.reset.trn.dgn.toNat < 20 ∧ { loaded.trn with dgn := 19 }.dgn.toNat < 20 ∧ 20 ≤ loaded.trn.dgn.toNat := by
  decide

theorem witness_GoTruncatesTheDigest :
    loaded.trn.dgn.toNat = 20 ∧ { loaded.trn with dgn := 19 }.dgn.toNat ≠ 20 := by decide

theorem witness_TruncationDependsOnTheDigestAlone :
    ∃ t, exec .trnGo loaded = .next t ∧ t.resp = some { fc := .ok, data := 0x50EF7F19 } := ⟨_, rfl, by decide⟩

theorem witness_GoFormatsSixDigits :
    truncated.trn.binv = true ∧ loaded.trn.binv = false ∧ Memory.wf truncated.dig.code = true := by decide

theorem witness_RdcReadsTheCode :
    truncated.dig.digv = false ∧ formatted.dig.digv = true ∧ (5 : Byte).toNat ≤ 5 ∧ 6 ≤ (6 : Byte).toNat := by decide

theorem witness_ValidCodeSpellsTheDigestNow : Inv formatted ∧ formatted.dig.digv = true :=
  ⟨witness_inv_formatted, rfl⟩

/-- Each row of R125, accepted and refused. -/
theorem witness_SequenceTable :
    (acceptedWhen .symUpperA running ∧ ¬ acceptedWhen .symUpperA faulted) ∧
    (acceptedWhen .b32End running ∧ ¬ acceptedWhen .b32End decodedState) ∧
    (acceptedWhen (.b32Rdb 0) decodedState ∧ ¬ acceptedWhen (.b32Rdb 0) running) ∧
    (acceptedWhen (.trnPush 0) State.reset ∧ ¬ acceptedWhen (.trnPush 0) loaded) ∧
    (acceptedWhen .trnGo loaded ∧ ¬ acceptedWhen .trnGo State.reset) ∧
    (acceptedWhen .digGo truncated ∧ ¬ acceptedWhen .digGo loaded) ∧
    (acceptedWhen (.digRdc 0) formatted ∧ ¬ acceptedWhen (.digRdc 0) truncated) ∧
    acceptedWhen .sreset State.reset ∧ ∃ t, exec .b32End running = .next t := by
  refine ⟨⟨rfl, ?_⟩, ⟨rfl, ?_⟩, ⟨rfl, ?_⟩, ⟨?_, ?_⟩, ⟨rfl, ?_⟩, ⟨rfl, ?_⟩, ⟨rfl, ?_⟩, trivial, _, rfl⟩ <;>
    simp [acceptedWhen, opOf, opField, encode, commandWord, faulted, decodedState, running, loaded, truncated,
      State.reset, State.resetFor, TrnRegs.reset, DigRegs.reset]

/-- Refusals of R120: a `Sequence` and a `Range`. -/
theorem witness_RefusalsChangeNoState :
    (∃ t, exec .b32End State.reset = .next t ∧ t.resp = some { fc := .sequence, data := 0 }) ∧
    ∃ t, exec (.rdreg 6) State.reset = .next t ∧ t.resp = some { fc := .range, data := 0 } :=
  ⟨⟨_, rfl, rfl⟩, ⟨_, rfl, rfl⟩⟩

/-- Both call faults. -/
theorem witness_CallFaultsArePrecise :
    (∃ t, exec (.b32Sym 0xFF) running = .next t ∧ t.resp = some { fc := .invalidCharacter, data := 0xFF }) ∧
    ∃ t, exec .symUpperW full = .next t ∧ t.resp = some { fc := .capacity, data := 0 } :=
  ⟨⟨_, rfl, rfl⟩, ⟨_, rfl, rfl⟩⟩

theorem witness_UnitStateChangesAsTabled : ∃ t, exec .b32Start faulted = .next t ∧ t.b32.st = .run := ⟨_, rfl, rfl⟩

theorem witness_ClosedCallIsFrozen :
    faulted.b32.st ≠ .run ∧ (∃ t, exec .trnClr faulted = .next t) ∧ Instr.trnClr ≠ .b32Start ∧
    Instr.trnClr ≠ .sreset := ⟨by decide, ⟨_, rfl⟩, by decide, by decide⟩

theorem witness_UnitsDoNotInterfere :
    (unitOf .symPad = 1 ∧ unitOf .trnGo = 2 ∧ unitOf .digGo = 3) ∧
    (∃ t, exec .symPad running = .next t) ∧ (∃ t, exec .trnGo loaded = .next t) ∧
    ∃ t, exec .digGo truncated = .next t := ⟨by decide, ⟨_, rfl⟩, ⟨_, rfl⟩, ⟨_, rfl⟩⟩

theorem witness_ReadsAreIdempotent :
    (∃ t, exec (.rdreg 0) faulted = .next t) ∧ (∃ t, exec (.b32Rdb 0) decodedState = .next t) ∧
    ∃ t, exec (.digRdc 0) formatted = .next t := ⟨⟨_, rfl⟩, ⟨_, rfl⟩, ⟨_, rfl⟩⟩

theorem witness_OnlyAnOutIndexPastTheEndStops : exec .symUpperA beyond = .fault (.noSuchByte .out 65) := by rfl

/-- The ends of the range of `OUT_MAX`, and infinity. -/
theorem witness_InvariantAtReset :
    (Capacity.bytes 1).wf = true ∧ (Capacity.bytes 256).wf = true ∧ Capacity.infinite.wf = true := by decide

theorem witness_StepKeepsInvariant :
    Inv { full with inputs := [.command 0x1157] } ∧
    ∃ t, step { full with inputs := [.command 0x1157] } = .next t := ⟨witness_inv_full.ports _ _, _, rfl⟩

theorem witness_EveryCommandIsAnswered :
    Inv { faulted with inputs := [.command 0xFFFF] } ∧
    { faulted with inputs := [.command 0xFFFF] }.inputs = .command 0xFFFF :: [] :=
  ⟨witness_inv_faulted.ports _ _, rfl⟩

/-- At the bound: `OUT_MAX` = 1 admits three symbols and one byte. -/
theorem witness_CountersNeverWrap : Inv full ∧ full.outMax = .bytes 1 ∧ full.b32.scnt = (8 * 1 + 7) / 5 :=
  ⟨witness_inv_full, rfl, rfl⟩

/-- Two states that differ in unreadable bytes of all three files. -/
theorem witness_UnreadableBytesDoNotMatter :
    let other := { State.reset with
      b32 := { B32Regs.reset with out := [(3, 7)] }, trn := { TrnRegs.reset with dg := [(0, 1)] },
      dig := { DigRegs.reset with code := [(5, 9)] } }
    Inv State.reset ∧ Inv other ∧ SameObservable State.reset other ∧ other ≠ State.reset ∧
    ∃ t, step State.reset = .next t := by
  refine ⟨witness_inv_reset, ?_, ?_, by decide, _, rfl⟩
  · constructor <;> decide
  · constructor <;> first | rfl | (intro j hj; exact absurd hj (Nat.not_lt_zero j)) | (intro h; exact absurd h (by decide))

/-- R78's example: "MZXW6YTB" without its last symbol has the length R74 gives for 7. -/
theorem witness_DecodedLength :
    wholeDecode [0x4D, 0x5A, 0x58, 0x57, 0x36, 0x59, 0x54] = .ok [0x66, 0x6F, 0x6F, 0x62] := by rfl

/-- A string that decodes and one that does not, within `OUT_MAX`. -/
theorem witness_StreamedDecodeIsWholeDecode :
    Inv State.reset ∧ State.reset.outMax.fits (5 * (trimPadding [0x4D, 0x59, 0x3D, 0x3D]).length / 8) = true ∧
    wholeDecode [0x4D, 0x59, 0x3D, 0x3D] = .ok [0x66] ∧ wholeDecode [0x4D, 0x3D, 0x59] = .error 0x3D :=
  ⟨witness_inv_reset, by decide, rfl, rfl⟩

/-- The byte 0x66 is written "MY" (or "my"). -/
theorem witness_DecodingInvertsEncoding :
    Inv full ∧ full.outMax.fits [(0x66 : Byte)].length = true ∧
    [0x4D, 0x79].map lookup = (encodedValues [0x66]).map SymClass.value := ⟨witness_inv_full, by decide, by decide⟩

theorem witness_UnixNowRoundsToNearest :
    (0 : Rat) ≤ 1 / 4 ∧ (1 / 4 : Rat) < 1 / 2 ∧ (1 / 2 : Rat) < 3 / 4 ∧ (3 / 4 : Rat) < 1 := by norm_num

/-- At a tie, and at the first instant of the domain. -/
theorem witness_RoundTieDoesNotMatter : 0 ≤ unixNow .halfUp (239 / 2) ∧ 0 ≤ unixNow .halfUp (-1 / 2) := by
  decide +kernel

theorem witness_MovingFactorIsBigEndian : 0 < 2 ^ 64 ∧ 2 ^ 64 - 1 < 2 ^ 64 := by norm_num

theorem witness_ExpiryClosedForm : 0 ≤ unixNow .halfEven (598 / 5) ∧ 0 ≤ unixNow .halfEven (-1 / 2) := by
  decide +kernel

/-- At f = 0 below the tie, and at f = 1/2 with n = 119. -/
theorem witness_ExpiryBounds :
    ((0 : Rat) ≤ 0 ∧ (0 : Rat) < 1 / 2 ∧ 0 ≤ unixNow .halfUp ((0 : Int) + 0)) ∧
    (0 : Rat) ≤ 1 / 2 ∧ (1 / 2 : Rat) < 1 ∧ (1 / 2 : Rat) ≤ 1 / 2 ∧ ((119 : Int) + 1) % 30 = 0 ∧
    0 ≤ unixNow .halfUp ((119 : Int) + 1 / 2) := by decide +kernel

/-- The contract holds at 100 s and at its first instant. -/
theorem witness_in_contract : InContract .halfUp 100 ∧ InContract .halfUp (-1 / 2) := by
  unfold InContract
  decide +kernel

theorem witness_GenerateGivesTheTotpCode :
    let hmac : List Byte → List Byte → List Byte := fun _ _ => digestCells.map fun c => c.2
    Inv State.reset ∧ InContract .halfUp 100 ∧ wholeDecode [0x4D, 0x59] = .ok [0x66] ∧
    [(0x66 : Byte)].length ≤ 256 ∧ State.reset.outMax.fits [(0x66 : Byte)].length = true ∧
    (hmac [0x66] (movingFactor (timeStep .halfUp 100))).length = 20 :=
  ⟨witness_inv_reset, witness_in_contract.1, rfl, by decide, by decide, by decide⟩

theorem witness_GenerateReportsInvalidCharacter :
    Inv State.reset ∧ InContract .halfUp (-1 / 2) ∧ wholeDecode [0x4D, 0x31] = .error 0x31 ∧
    State.reset.outMax.fits (5 * (trimPadding [0x4D, 0x31]).length / 8) = true :=
  ⟨witness_inv_reset, witness_in_contract.2, rfl, by decide⟩

/-- After "MY", "MY=", "A1" and "A=B", with a character above 0xFF next. -/
theorem witness_GenerateReportsWideCharacter :
    Inv State.reset ∧ InContract .halfUp 100 ∧ 0xFF < 0x100 ∧
    [[0x4D, 0x59], [0x4D, 0x59, 0x3D], [0x41, 0x31], [0x41, 0x3D, 0x42]].all
      (fun before => State.reset.outMax.fits (5 * (trimPadding before).length / 8)) = true ∧
    (wholeDecode [0x41, 0x31] = .error 0x31 ∧ wholeDecode [0x41, 0x3D, 0x42] = .error 0x3D) ∧
    (wholeDecode [0x4D, 0x59, 0x3D] = .ok [0x66] ∧ [(0x4D : Byte), 0x59, 0x3D].getLast? = some 0x3D) ∧
    wholeDecode [0x4D, 0x59] = .ok [0x66] ∧ [(0x4D : Byte), 0x59].getLast? ≠ some 0x3D :=
  ⟨witness_inv_reset, witness_in_contract.1, by decide, by decide, ⟨rfl, rfl⟩, ⟨rfl, by decide⟩, rfl, by decide⟩

/-- R115's example: unix times 100 and 101. -/
theorem witness_CodeIsStableWithinAStep :
    0 ≤ unixNow .halfUp 100 ∧ 0 ≤ unixNow .halfUp 101 ∧ timeStep .halfUp 100 = timeStep .halfUp 101 := by
  decide +kernel

/-- Instants at and before the edge of the domain. -/
theorem witness_TimeStepAndItsDomain :
    0 ≤ unixNow .halfUp (-1 / 2) ∧ unixNow .halfUp (-3 / 4) < 0 ∧ unixNow .halfEven (-3 / 4) < 0 := by
  decide +kernel

end Sys2Proof.Tests
end

section
/-! The step with no input on the port (00_scope.md R7). -/

namespace Sys2Proof.Machine

/-- A step with an empty port changes nothing: the companion of `step_command`. -/
theorem step_of_inputs_nil {s : State} (h : s.inputs = []) : step s = .next s := by
  simp only [step, h]

/-- Settles O12: `step` branches on the inputs alone, and the empty list is its idle branch. -/
theorem idleBlockStaysAsItIs : Obligations.IdleBlockStaysAsItIs :=
  fun _ h => step_of_inputs_nil h

end Sys2Proof.Machine
end

section
/-! The invariant of 10_state.md R27 under each update of the state: every lemma lists only the items the update
touches, the others are the items of the state before. -/

namespace Sys2Proof.Machine

open Sys2Proof.Config

variable {s : State}

theorem inv_respond (h : Inv s) (fc : FaultCode) (d : Data) : Inv (respond fc d s) := h.ports s.inputs _

/-- A count of 0 fits in every buffer. -/
theorem fits_zero (cap : Capacity) : cap.fits 0 = true := by
  cases cap <;> simp [Capacity.fits]

/-- One more byte fits where the next index is in the buffer. -/
theorem fits_succ_of_holds {cap : Capacity} {n : Nat} (h : cap.holds n = true) : cap.fits (n + 1) = true := by
  cases cap with
  | infinite => rfl
  | bytes m => simpa [Capacity.fits, Capacity.holds, Nat.succ_le_iff] using h

/-- The reset values of 10_state.md R28 meet the invariant, whatever the capacity. -/
theorem inv_of_reset (hcap : s.outMax.wf = true) (hb : s.b32 = .reset) (ht : s.trn = .reset) (hd : s.dig = .reset) :
    Inv s := by
  constructor <;>
    simp [hcap, fits_zero, hb, ht, hd, B32Regs.reset, TrnRegs.reset, DigRegs.reset, Memory.wf, Memory.wfFrom]

theorem inv_resetRegisters (h : Inv s) : Inv (resetRegisters s) := inv_of_reset h.capacityInRange rfl rfl rfl

theorem inv_hardwareReset (h : Inv s) : Inv (hardwareReset s) := inv_of_reset h.capacityInRange rfl rfl rfl

-- # B32

theorem inv_openCall (h : Inv s) : Inv (openCall s) :=
  { h with
    bremRange := by simp
    bremCounts := fun _ => rfl
    ocntCounts := by simp
    curLowBitsFree := rfl
    ocntFits := fits_zero _
    faultRecorded := by simp
    errcharRecorded := by simp
    errcodeValues := .inl rfl
    idleClean := nofun }

theorem inv_setPad (h : Inv s) (hr : s.b32.st = .run) : Inv (setPad s) :=
  { h with idleClean := by simp [hr] }

theorem inv_closeCall (h : Inv s) (hr : s.b32.st = .run) : Inv (closeCall s) :=
  { h with
    bremCounts := fun _ => h.bremCounts (by simp [hr])
    ocntCounts := fun _ => h.ocntCounts (by simp [hr])
    faultRecorded := by simpa [hr] using h.faultRecorded
    idleClean := nofun }

/-- A call fault keeps the counters of the open call and records its code, with a character for code 1 only. -/
theorem inv_recordCallFault (h : Inv s) (hr : s.b32.st = .run) {fc : FaultCode} {c : Byte}
    (hfc : fc = .invalidCharacter ∨ fc = .capacity ∧ c = 0) : Inv (recordCallFault fc c s) :=
  { h with
    bremCounts := fun _ => h.bremCounts (by simp [hr])
    ocntCounts := fun _ => h.ocntCounts (by simp [hr])
    faultRecorded := by rcases hfc with rfl | ⟨rfl, -⟩ <;> simp [FaultCode.code]
    errcharRecorded := by rcases hfc with rfl | ⟨rfl, rfl⟩ <;> simp [FaultCode.code]
    errcodeValues := by rcases hfc with rfl | ⟨rfl, -⟩ <;> simp [FaultCode.code]
    idleClean := nofun }

/-- A multiple of `2 ^ k` cut to a byte has its low `k` bits free. -/
theorem ofNat_shiftLeft_mod {v k : Nat} (hk : k ≤ 8) : (BitVec.ofNat 8 (shiftLeft v k)).toNat % 2 ^ k = 0 := by
  rw [BitVec.toNat_ofNat, Nat.mod_mod_of_dvd _ (Nat.pow_dvd_pow 2 hk)]
  exact Nat.mul_mod_left v (2 ^ k)

/-- The low bits of an OR are free where those of both sides are. -/
theorem or_mod_two_pow_eq_zero {a b : Byte} {k : Nat} (ha : a.toNat % 2 ^ k = 0) (hb : b.toNat % 2 ^ k = 0) :
    (a ||| b).toNat % 2 ^ k = 0 := by
  rw [BitVec.toNat_or, Nat.or_mod_two_pow, ha, hb]; rfl

/-- The value lands above the bits that stay free, and the counters move together (R70). -/
theorem inv_fitsState (h : Inv s) (hr : s.b32.st = .run) (hfit : 5 < s.b32.brem.toNat) (v : SymValue) :
    Inv (fitsState v s) := by
  have hmax := h.bremRange.2
  have hbrem := h.bremCounts (by simp [hr])
  have hocnt := h.ocntCounts (by simp [hr])
  have hnew : (fitsState v s).b32.brem.toNat = s.b32.brem.toNat - 5 := by simp [fitsState]; omega
  have hfree : s.b32.cur.toNat % 2 ^ (s.b32.brem.toNat - 5) = 0 :=
    Nat.mod_eq_zero_of_dvd ((Nat.pow_dvd_pow 2 (Nat.sub_le _ 5)).trans (Nat.dvd_of_mod_eq_zero h.curLowBitsFree))
  exact { h with
    bremRange := by omega
    bremCounts := fun _ => by rw [hnew]; simp only [fitsState]; omega
    ocntCounts := fun _ => by simp only [fitsState]; omega
    curLowBitsFree := by rw [hnew]; exact or_mod_two_pow_eq_zero hfree (ofNat_shiftLeft_mod (by omega))
    idleClean := by simp [fitsState, hr] }

/-- The completed byte goes to the next index of `OUT`, the rest of the value lands above the free bits (R71). -/
theorem inv_straddlesState (h : Inv s) (hr : s.b32.st = .run) (hstr : s.b32.brem.toNat ≤ 5)
    (hroom : s.outMax.holds s.b32.ocnt = true) (v : SymValue) : Inv (straddlesState v s) := by
  have hmin := h.bremRange.1
  have hbrem := h.bremCounts (by simp [hr])
  have hocnt := h.ocntCounts (by simp [hr])
  have hnew : (straddlesState v s).b32.brem.toNat = 3 + s.b32.brem.toNat := by simp [straddlesState]; omega
  exact { h with
    outCanonical := Memory.write_wf _ _ _ h.outCanonical
    outInSpace := fun c hc => by
      rcases Memory.mem_write hc with hold | hidx
      · exact h.outInSpace c hold
      · rw [hidx]; exact hroom
    bremRange := by omega
    bremCounts := fun _ => by rw [hnew]; simp only [straddlesState]; omega
    ocntCounts := fun _ => by simp only [straddlesState]; omega
    curLowBitsFree := by rw [hnew]; exact ofNat_shiftLeft_mod (by omega)
    ocntFits := fits_succ_of_holds hroom
    idleClean := by simp [straddlesState, hr] }

/-- D0's final flush never fires: R27 item 3 counts every complete byte (40_b32_decode.md R72). -/
theorem expectedLength_le_ocnt (h : Inv s) (hr : s.b32.st = .run) : expectedLength s ≤ s.b32.ocnt := by
  have := h.ocntCounts (by simp [hr])
  simp only [expectedLength]; omega

-- # TRN and DIG

theorem inv_clear (h : Inv s) :
    Inv (invalidateCode { s with trn := { s.trn with dgn := 0, off := 0, bin := 0, binv := false } }) :=
  { h with
    dgnRange := by simp
    binvLoaded := nofun
    digvValid := nofun
    binRange := by simp
    binClear := fun _ => ⟨rfl, rfl⟩
    binOfDigest := nofun
    numRange := by simp
    numClear := fun _ => rfl
    numOfBin := nofun
    codeOfNum := nofun }

/-- While the digest is incomplete no result stands, so a digest byte makes none stale (70_reset_and_hazards.md
R145). -/
theorem inv_pushedState (h : Inv s) (hopen : s.trn.dgn.toNat < 20) (b : Byte) : Inv (pushedState b s) := by
  have hbinv : ¬ s.trn.binv = true := fun hv => by
    have := h.binvLoaded hv
    simp only [digestLen] at this; omega
  exact { h with
    dgCanonical := Memory.write_wf _ _ _ h.dgCanonical
    dgInSpace := fun c hc => by
      rcases Memory.mem_write hc with hold | hidx
      · exact h.dgInSpace c hold
      · exact inSpace_dg (by omega) _
    dgnRange := by simp [pushedState, digestLen]; omega
    binvLoaded := fun hv => absurd hv hbinv
    binOfDigest := fun hv => absurd hv hbinv }

/-- A truncated word is below 2^31: the top bit of its first byte is masked (41_truncate.md R82). -/
theorem IsTruncation.lt_two_pow {o : BitVec 4} {b : BitVec 32} (ht : IsTruncation o b s) : b.toNat < 2 ^ 31 := by
  obtain ⟨-, hb⟩ := ht
  have h1 := (byteAt .dg (o.toNat + 1) s).isLt
  have h2 := (byteAt .dg (o.toNat + 2) s).isLt
  have h3 := (byteAt .dg (o.toNat + 3) s).isLt
  omega

theorem inv_truncatedState (h : Inv s) (hfull : s.trn.dgn.toNat = 20) {o : BitVec 4} {b : BitVec 32}
    (ht : IsTruncation o b s) : Inv (truncatedState o b s) :=
  { h with
    binvLoaded := fun _ => hfull
    digvValid := nofun
    binRange := ht.lt_two_pow
    binClear := nofun
    binOfDigest := fun _ => ht
    numRange := by simp [truncatedState]
    numClear := fun _ => rfl
    numOfBin := nofun
    codeOfNum := nofun }

/-- `NUM` holds the numeric code whole: it is below 10^6, hence below 2^20 (42_digits.md R90). -/
theorem formattedState_num_toNat (m : Memory) (s : State) :
    (formattedState m s).dig.num.toNat = s.trn.bin.toNat % 1000000 := by
  simp [formattedState, numericCode, modulus]; omega

theorem inv_formattedState (h : Inv s) (hv : s.trn.binv = true) {m : Memory} (hm : IsFormatted m s) :
    Inv (formattedState m s) := by
  have hnum := formattedState_num_toNat m s
  obtain ⟨hspell, -, hmem⟩ := hm
  obtain ⟨hwf, hdigit⟩ := hspell h.codeCanonical
  exact { h with
    codeCanonical := hwf
    codeInSpace := fun c hc => (hmem c hc).elim (h.codeInSpace c) fun hlt => inSpace_code hlt _
    digvValid := fun _ => hv
    numRange := by omega
    numClear := nofun
    numOfBin := fun _ => hnum
    codeOfNum := fun _ k hk => by
      rw [hnum, byteAt_code]
      exact (congrArg BitVec.toNat (hdigit k hk)).trans (digitChar_toNat _ k) }

end Sys2Proof.Machine
end

section
/-! Every command and every step keeps the invariant, and what the invariant says of the counters (10_state.md sections
2, 7 and 8). -/

namespace Sys2Proof.Machine

/-- A command that answers a next state has one of the effects of `exec_effect`, the stop left out. -/
theorem effect_of_exec_next {i : Instr} {s t : State} (h : exec i s = .next t) : Effect i s (.next t) :=
  h ▸ exec_effect i s

theorem exec_keeps_inv {i : Instr} {s t : State} (h : Inv s) (he : exec i s = .next t) : Inv t := by
  cases effect_of_exec_next he with
  | refuse r hr => rcases hr with rfl | rfl <;> exact inv_respond h _ _
  | badSymbol b _ hrun => exact inv_respond (inv_recordCallFault h hrun (.inl rfl)) _ _
  | noRoom _ hrun _ => exact inv_respond (inv_recordCallFault h hrun (.inr ⟨rfl, rfl⟩)) _ _
  | read d _ => exact inv_respond h _ _
  | reset _ => exact inv_respond (inv_resetRegisters h) _ _
  | start _ => exact inv_respond (inv_openCall h) _ _
  | pad _ hrun => exact inv_respond (inv_setPad h hrun) _ _
  | fits v _ hrun _ hfit => exact inv_respond (inv_fitsState h hrun hfit v) _ _
  | straddles v _ hrun _ hstr hroom => exact inv_respond (inv_straddlesState h hrun hstr hroom v) _ _
  | close _ hrun _ => exact inv_respond (inv_closeCall h hrun) _ _
  | flush _ hrun hlt _ => exact absurd hlt (expectedLength_le_ocnt h hrun).not_gt
  | clear _ => exact inv_respond (inv_clear h) _ _
  | push b _ hopen => exact inv_respond (inv_pushedState h hopen b) _ _
  | truncate o b _ hfull ht => exact inv_respond (inv_truncatedState h hfull ht) _ _
  | format m _ hv hm => exact inv_respond (inv_formattedState h hv hm) _ _

theorem takeInput_keeps_inv {x : Input} {s t : State} (h : Inv s) (ht : takeInput x s = .next t) : Inv t := by
  cases x with
  | reset => cases ht; exact inv_hardwareReset h
  | command w =>
    cases hd : decode w with
    | ok i => exact exec_keeps_inv h ((executeWord_ok hd).symm.trans ht)
    | error e =>
      simp only [takeInput, executeWord, hd] at ht
      cases ht; exact inv_respond h _ _

/-- Settles O42, by cases on the input taken and, for a command, on its effect. -/
theorem stepKeepsInvariant : Obligations.StepKeepsInvariant := by
  intro s t h hs
  cases hin : s.inputs with
  | nil =>
    rw [step_of_inputs_nil hin] at hs
    cases hs; exact h
  | cons x rest =>
    simp only [step, hin] at hs
    exact takeInput_keeps_inv (h.ports rest s.resp) hs

/-- Settles O41: the reset state is one with the reset values, and its default capacity is 64 bytes. -/
theorem invariantAtReset : Obligations.InvariantAtReset :=
  ⟨inv_of_reset (by decide) rfl rfl rfl, fun _ hcap => inv_of_reset hcap rfl rfl rfl⟩

/-- Settles O44: R27 item 5 bounds OCNT by OUT_MAX, and items 3 and 7 tie SCNT to OCNT. -/
theorem countersNeverWrap : Obligations.CountersNeverWrap := by
  intro s n h hcap
  have hmax : n ≤ 256 := by
    have := h.capacityInRange
    simp only [hcap, Config.Capacity.wf, Bool.and_eq_true, decide_eq_true_eq] at this
    exact this.2
  have hfits : s.b32.ocnt ≤ n := by simpa [hcap, Config.Capacity.fits] using h.ocntFits
  have hcount : s.b32.ocnt = 5 * s.b32.scnt / 8 := by
    by_cases hidle : s.b32.st = .idle
    · obtain ⟨-, -, hscnt, hocnt, -⟩ := h.idleClean hidle
      rw [hscnt, hocnt]
    · exact h.ocntCounts hidle
  omega

end Sys2Proof.Machine
end

section
/-! What a command word decodes to is the instruction it is the word of, row by row of the opcode map (30_encoding.md
R48 to R54). -/

namespace Sys2Proof

/-- A row without an operand is selected by its pattern alone. -/
theorem eq_of_masked_allOnes {w p : CommandWord} (h : w &&& 0xFFFF = p) : w = p := by
  rw [← h]; exact (BitVec.and_allOnes (x := w)).symm

/-- A row with an operand is selected by its operation code, whatever `arg` is. -/
theorem eq_commandWord_of_masked {w : CommandWord} {op : Byte} (h : w &&& 0xFF00 = commandWord op 0) :
    commandWord op (argField w) = w := by
  have hop : opField w = op := by
    have hw := commandWord_masked (opField w) (argField w)
    rw [commandWord_fields] at hw
    simpa using congrArg opField (hw.symm.trans h)
  rw [← hop]; exact commandWord_fields w

theorem encode_of_mem_sym8Rows : ∀ r ∈ sym8Rows, encode r.2 = commandWord 0x11 r.1 := by decide

/-- The instruction of a symbol command carries its symbol code, on a row of its own or not. -/
theorem encode_decodeSymbolCommand (c : Byte) : encode (decodeSymbolCommand c) = commandWord 0x11 c := by
  unfold decodeSymbolCommand decodeSym8
  cases hf : sym8Rows.find? (fun r => r.1 == c) with
  | none => rfl
  | some r =>
    have hc : r.1 = c := by simpa using List.find?_some hf
    rw [← hc]; exact encode_of_mem_sym8Rows r (List.mem_of_find?_eq_some hf)

/-- The row a word selects builds the instruction the word encodes: a row of the opcode map has no operand, an operand
that stands as it is, or a symbol code. -/
theorem encode_of_selects {r : CommandRow} (hr : r ∈ commandRows) {w : CommandWord} (h : r.selects w = true) :
    encode (r.build (argField w)) = w := by
  simp only [commandRows, List.cons_append, List.nil_append, List.mem_cons, List.not_mem_nil, or_false] at hr
  rcases hr with rfl | rfl | rfl | rfl | rfl | rfl | rfl | rfl | rfl | rfl | rfl <;>
    replace h := eq_of_beq h
  · exact eq_commandWord_of_masked h
  · exact (eq_of_masked_allOnes h).symm
  · exact (eq_of_masked_allOnes h).symm
  · exact (encode_decodeSymbolCommand _).trans (eq_commandWord_of_masked h)
  · exact (eq_of_masked_allOnes h).symm
  · exact eq_commandWord_of_masked h
  · exact (eq_of_masked_allOnes h).symm
  · exact eq_commandWord_of_masked h
  · exact (eq_of_masked_allOnes h).symm
  · exact (eq_of_masked_allOnes h).symm
  · exact eq_commandWord_of_masked h

/-- A word that decodes is the word of the instruction it decodes to. -/
theorem encode_of_decode_eq_ok {w : CommandWord} {i : Instr} (h : decode w = .ok i) : encode i = w := by
  unfold decode at h
  split at h
  · rename_i r hf
    cases h
    exact encode_of_selects (List.mem_of_find?_eq_some hf) (by simpa using List.find?_some hf)
  · cases h

end Sys2Proof
end

section
/-! The reset values, the frames and the stop, each from the inversion `exec_effect` (10_state.md sections 2, 6, 8). -/

namespace Sys2Proof.Machine

/-- `SRESET`'s one word: the word decodes to it, and no other word can. -/
theorem isWordOf_sreset : IsWordOf .sreset 0x0200 := fun _ =>
  ⟨fun h => (encode_of_decode_eq_ok h).symm, fun h => h ▸ rfl⟩

/-- The units' reset values are the register values of 10_state.md R28. -/
theorem atResetValues_of_reset {s : State} (hb : s.b32 = .reset) (ht : s.trn = .reset) (hd : s.dig = .reset) :
    AtResetValues s := by
  rw [AtResetValues, hb, ht, hd]; decide

/-- Settles O10, the three ways into reset each by the units' reset values. -/
theorem resetValuesAfterReset : Obligations.ResetValuesAfterReset := by
  refine ⟨isWordOf_sreset, atResetValues_of_reset rfl rfl rfl, fun s rest hin => ?_, fun s => ?_⟩
  · exact ⟨_, by simp only [step, hin]; rfl, atResetValues_of_reset rfl rfl rfl⟩
  · exact ⟨_, rfl, atResetValues_of_reset rfl rfl rfl, rfl, rfl, rfl⟩

/-- A symbol command is a command of the B32 unit: its operation code is 0x11. -/
theorem unitOf_symbol {i : Instr} (h : (symbolOf i).isSome = true) : unitOf i = 1 := by
  have hop : opField (encode i) = 0x11 := by simpa [symbolOf] using h
  simp [unitOf, opOf, hop]

theorem unitOf_trnPush (b : Byte) : unitOf (.trnPush b) = 2 := by simp [unitOf, opOf, encode]

/-- A refusal records nothing (60_exceptions.md R120). -/
theorem recordFault_of_refusal {r : Raised} (h : r = .sequence ∨ r = .range) (s : State) : recordFault r s = s := by
  rcases h with rfl | rfl <;> rfl

/-- Settles O35: of all the effects, six change ST, each on a row of the table. -/
theorem unitStateChangesAsTabled : Obligations.UnitStateChangesAsTabled := by
  intro i s t h
  cases effect_of_exec_next h with
  | refuse r hr => rw [recordFault_of_refusal hr]; exact .inl rfl
  | badSymbol _ hsym hrun => exact .inr (.inr (.inr (.inr ⟨hsym, hrun, rfl⟩)))
  | noRoom hsym hrun _ => exact .inr (.inr (.inr (.inr ⟨hsym, hrun, rfl⟩)))
  | reset hi => exact .inr (.inl ⟨hi, rfl⟩)
  | start hi => exact .inr (.inr (.inl ⟨hi, rfl⟩))
  | close hi hrun _ => exact .inr (.inr (.inr (.inl ⟨hi, hrun, rfl⟩)))
  | flush hi hrun _ _ => exact .inr (.inr (.inr (.inl ⟨hi, hrun, rfl⟩)))
  | read | pad | fits | straddles | clear | push | truncate | format => exact .inl rfl

/-- Settles O36: every effect on the B32 unit but those of B32.START and SRESET needs an open call. -/
theorem closedCallIsFrozen : Obligations.ClosedCallIsFrozen := by
  intro i s t hclosed h hstart hsreset
  cases effect_of_exec_next h with
  | refuse r hr => rw [recordFault_of_refusal hr]; rfl
  | reset hi => exact absurd hi hsreset
  | start hi => exact absurd hi hstart
  | badSymbol _ _ hrun => exact absurd hrun hclosed
  | noRoom _ hrun _ => exact absurd hrun hclosed
  | pad _ hrun => exact absurd hrun hclosed
  | fits _ _ hrun => exact absurd hrun hclosed
  | straddles _ _ hrun => exact absurd hrun hclosed
  | close _ hrun _ => exact absurd hrun hclosed
  | flush _ hrun _ _ => exact absurd hrun hclosed
  | read | clear | push | truncate | format => rfl

theorem exec_samePorts {i : Instr} {s t : State} (h : exec i s = .next t) : SamePorts s t := by
  cases effect_of_exec_next h with
  | refuse r hr => rw [recordFault_of_refusal hr]; exact ⟨rfl, rfl⟩
  | _ => exact ⟨rfl, rfl⟩

/-- What an instruction of each unit leaves alone (10_state.md R26). -/
def UnitFrame (i : Instr) (s t : State) : Prop :=
  (unitOf i = 1 → t.trn = s.trn ∧ t.dig = s.dig) ∧
  (unitOf i = 2 → t.b32 = s.b32 ∧ t.dig.code = s.dig.code) ∧
  (unitOf i = 3 → t.b32 = s.b32 ∧ t.trn = s.trn)

section
variable {i : Instr} {s t : State}

theorem UnitFrame.of_unchanged (hb : t.b32 = s.b32) (ht : t.trn = s.trn) (hd : t.dig = s.dig) : UnitFrame i s t :=
  ⟨fun _ => ⟨ht, hd⟩, fun _ => ⟨hb, congrArg DigRegs.code hd⟩, fun _ => ⟨hb, ht⟩⟩

theorem UnitFrame.of_system (hu : unitOf i = 0) : UnitFrame i s t := by simp [UnitFrame, hu]

theorem UnitFrame.of_b32 (hu : unitOf i = 1) (ht : t.trn = s.trn) (hd : t.dig = s.dig) : UnitFrame i s t := by
  simp [UnitFrame, hu, ht, hd]

theorem UnitFrame.of_trn (hu : unitOf i = 2) (hb : t.b32 = s.b32) (hc : t.dig.code = s.dig.code) :
    UnitFrame i s t := by
  simp [UnitFrame, hu, hb, hc]

theorem UnitFrame.of_dig (hu : unitOf i = 3) (hb : t.b32 = s.b32) (ht : t.trn = s.trn) : UnitFrame i s t := by
  simp [UnitFrame, hu, hb, ht]

/-- Every effect but that of SRESET stays in the unit the operation code names. -/
theorem exec_unitFrame (h : exec i s = .next t) : UnitFrame i s t := by
  cases effect_of_exec_next h with
  | refuse r hr => rw [recordFault_of_refusal hr]; exact .of_unchanged rfl rfl rfl
  | read => exact .of_unchanged rfl rfl rfl
  | reset hi => exact .of_system (hi ▸ rfl)
  | start hi => exact .of_b32 (hi ▸ rfl) rfl rfl
  | close hi => exact .of_b32 (hi ▸ rfl) rfl rfl
  | flush hi => exact .of_b32 (hi ▸ rfl) rfl rfl
  | badSymbol _ hsym => exact .of_b32 (unitOf_symbol hsym) rfl rfl
  | noRoom hsym => exact .of_b32 (unitOf_symbol hsym) rfl rfl
  | pad hsym => exact .of_b32 (unitOf_symbol hsym) rfl rfl
  | fits _ hsym => exact .of_b32 (unitOf_symbol hsym) rfl rfl
  | straddles _ hsym => exact .of_b32 (unitOf_symbol hsym) rfl rfl
  | clear hi => exact .of_trn (hi ▸ rfl) rfl rfl
  | push b hi => exact .of_trn (hi ▸ unitOf_trnPush b) rfl rfl
  | truncate _ _ hi => exact .of_trn (hi ▸ rfl) rfl rfl
  | format _ hi => exact .of_dig (hi ▸ rfl) rfl rfl

end

/-- Settles O37, the ports and the frames of the three units. -/
theorem unitsDoNotInterfere : Obligations.UnitsDoNotInterfere :=
  fun _ _ _ h => ⟨exec_samePorts h, exec_unitFrame h⟩

/-- A command that stops the machine has the one stopping effect of `exec_effect`. -/
theorem effect_of_exec_fault {i : Instr} {s : State} {f : Fault} (h : exec i s = .fault f) : Effect i s (.fault f) :=
  h ▸ exec_effect i s

/-- Settles O39: every other effect answers a next state. -/
theorem onlyAnOutIndexPastTheEndStops : Obligations.OnlyAnOutIndexPastTheEndStops := by
  intro i s f h
  cases effect_of_exec_fault h with
  | stop j hout hbroken => exact ⟨j, rfl, hout, hbroken⟩

end Sys2Proof.Machine
end

section
/-! A read answers and does nothing else, and its answer does not depend on the answer before it, so it may be repeated
(20_memory.md R36). A command is one step (20_memory.md R39). -/

namespace Sys2Proof.Machine

/-- The three commands that read: a register, a byte of OUT, a byte of CODE. -/
def IsRead (i : Instr) : Prop := ∃ n, i = .rdreg n ∨ i = .b32Rdb n ∨ i = .digRdc n

/-- If the result goes on, it goes on in the state as it was, with a response in it. -/
def AnswersOnly (s : State) (r : Result) : Prop := ∀ t, r = .next t → ∃ fc d, t = respond fc d s

theorem answersOnly_respondOk (d : Data) (s : State) : AnswersOnly s (respondOk d s) :=
  fun _ h => ⟨.ok, d, respondOk_next h⟩

/-- A refusal answers and records nothing (60_exceptions.md R120). -/
theorem answersOnly_refusal {r : Raised} (hr : r = .sequence ∨ r = .range) (s : State) : AnswersOnly s (raise r s) := by
  intro t h
  rw [raise, recordFault_of_refusal hr] at h
  cases h; exact ⟨_, _, rfl⟩

theorem answersOnly_fault (f : Fault) (s : State) : AnswersOnly s (.fault f) := nofun

/-- Every branch of a read is an answer, a refusal, or the model's own stop. -/
theorem IsRead.answersOnly {i : Instr} (hi : IsRead i) (s : State) : AnswersOnly s (exec i s) := by
  obtain ⟨n, rfl | rfl | rfl⟩ := hi
  · change AnswersOnly s (execRdreg n s)
    rcases execRdreg_cases n s with h | ⟨d, h⟩ <;> rw [h]
    · exact answersOnly_refusal (.inr rfl) s
    · exact answersOnly_respondOk d s
  · change AnswersOnly s (execB32Rdb n s)
    rcases execB32Rdb_cases n s with ⟨-, h⟩ | ⟨-, -, h⟩ | ⟨-, -, h⟩ | ⟨-, -, -, h⟩ <;> rw [h]
    · exact answersOnly_refusal (.inl rfl) s
    · exact answersOnly_refusal (.inr rfl) s
    · exact answersOnly_respondOk _ s
    · exact answersOnly_fault _ s
  · change AnswersOnly s (execDigRdc n s)
    rcases execDigRdc_cases n s with ⟨-, h⟩ | ⟨-, -, h⟩ | ⟨-, -, h⟩ <;> rw [h]
    · exact answersOnly_refusal (.inl rfl) s
    · exact answersOnly_refusal (.inr rfl) s
    · exact answersOnly_respondOk _ s

/-- A read looks at no earlier response and overwrites it: its conditions and its data are of the three units and
`OUT_MAX`, which `respond` keeps. -/
theorem IsRead.exec_respond {i : Instr} (hi : IsRead i) (fc : FaultCode) (d : Data) (s : State) :
    exec i (respond fc d s) = exec i s := by
  obtain ⟨n, rfl | rfl | rfl⟩ := hi <;> rfl

/-- Settles O38: the state after a read is the state before with the answer in it, and the answer does not matter to
the second read. -/
theorem readsAreIdempotent : Obligations.ReadsAreIdempotent := by
  intro i s t hi h
  obtain ⟨fc, d, rfl⟩ := IsRead.answersOnly hi s t h
  exact ⟨rfl, rfl, rfl, ⟨rfl, rfl⟩, (IsRead.exec_respond hi fc d s).trans h⟩

/-- Settles O5: the step takes the word off the port, and the word decodes. -/
theorem stepRunsDecodedCommand : Obligations.StepRunsDecodedCommand :=
  fun _ _ _ _ hin hd => (step_command hin).trans (executeWord_ok hd)

end Sys2Proof.Machine
end

section
/-! The alphabet by its code ranges (30_encoding.md R50 to R55): which code has which class, and what a symbol command
does with it. -/

namespace Sys2Proof.Machine

/-- `lookup`, branch by branch, with codes as numbers: the letters of either case, the digits, `=`, and the rest. -/
theorem lookup_cases (c : Byte) :
    (0x41 ≤ c.toNat ∧ c.toNat ≤ 0x5A ∧ lookup c = .value (BitVec.ofNat 5 (c.toNat - 0x41))) ∨
    (0x61 ≤ c.toNat ∧ c.toNat ≤ 0x7A ∧ lookup c = .value (BitVec.ofNat 5 (c.toNat - 0x61))) ∨
    (0x32 ≤ c.toNat ∧ c.toNat ≤ 0x37 ∧ lookup c = .value (BitVec.ofNat 5 (c.toNat - 0x32 + 26))) ∨
    (c.toNat = 0x3D ∧ lookup c = .pad) ∨
    ((c.toNat ≤ 0x31 ∨ (0x38 ≤ c.toNat ∧ c.toNat ≤ 0x3C) ∨ (0x3E ≤ c.toNat ∧ c.toNat ≤ 0x40) ∨
      (0x5B ≤ c.toNat ∧ c.toNat ≤ 0x60) ∨ 0x7B ≤ c.toNat) ∧ lookup c = .none) := by
  unfold lookup padCode
  split_ifs with hupper hlower hdigit hpad
  · exact .inl ⟨hupper.1, hupper.2, rfl⟩
  · exact .inr (.inl ⟨hlower.1, hlower.2, rfl⟩)
  · exact .inr (.inr (.inl ⟨hdigit.1, hdigit.2, rfl⟩))
  · exact .inr (.inr (.inr (.inl ⟨congrArg BitVec.toNat hpad, rfl⟩)))
  · exact .inr (.inr (.inr (.inr ⟨by bv_omega, rfl⟩)))

theorem lookup_eq_value_iff (c : Byte) (v : SymValue) : lookup c = .value v ↔
    (v.toNat < 26 ∧ (c.toNat = 0x41 + v.toNat ∨ c.toNat = 0x61 + v.toNat)) ∨
    (26 ≤ v.toNat ∧ c.toNat = 0x32 + (v.toNat - 26)) := by
  rcases lookup_cases c with ⟨hlo, hhi, h⟩ | ⟨hlo, hhi, h⟩ | ⟨hlo, hhi, h⟩ | ⟨hc, h⟩ | ⟨hc, h⟩ <;>
    simp only [h, SymClass.value.injEq, reduceCtorEq, false_iff] <;> bv_omega

theorem lookup_eq_pad_iff (c : Byte) : lookup c = .pad ↔ c.toNat = 0x3D := by
  rcases lookup_cases c with ⟨hlo, hhi, h⟩ | ⟨hlo, hhi, h⟩ | ⟨hlo, hhi, h⟩ | ⟨hc, h⟩ | ⟨hc, h⟩ <;>
    simp only [h, reduceCtorEq, false_iff, true_iff] <;> omega

theorem lookup_eq_none_iff (c : Byte) : lookup c = .none ↔
    c.toNat ≤ 0x31 ∨ (0x38 ≤ c.toNat ∧ c.toNat ≤ 0x3C) ∨ (0x3E ≤ c.toNat ∧ c.toNat ≤ 0x40) ∨
    (0x5B ≤ c.toNat ∧ c.toNat ≤ 0x60) ∨ 0x7B ≤ c.toNat := by
  rcases lookup_cases c with ⟨hlo, hhi, h⟩ | ⟨hlo, hhi, h⟩ | ⟨hlo, hhi, h⟩ | ⟨hc, h⟩ | ⟨hc, h⟩ <;>
    simp only [h, reduceCtorEq, false_iff, true_iff] <;> omega

/-- A symbol with an alphabet value acts through the value alone (30_encoding.md R52). -/
theorem deliverSymbol_eq_of_value {a b : Byte} {v : SymValue} (ha : lookup a = .value v) (hb : lookup b = .value v)
    (s : State) : deliverSymbol a s = deliverSymbol b s := by
  simp only [deliverSymbol, ha, hb]

/-- A code of no class faults an open call that awaits no padding (40_b32_decode.md R69). -/
theorem deliverSymbol_of_none {c : Byte} {s : State} (hc : lookup c = .none) (hrun : s.b32.st = .run)
    (hpad : s.b32.pad = false) : deliverSymbol c s = raise (.invalidCharacter c) s := by
  simp [deliverSymbol, callOpen, hc, hrun, hpad]

/-- Settles O7, from the branches of `lookup`. -/
theorem alphabetTable : Obligations.AlphabetTable := ⟨lookup_eq_value_iff, lookup_eq_pad_iff⟩

/-- Settles O8: the ranges, their count, and the branch of R69. -/
theorem invalidSymbolCodes : Obligations.InvalidSymbolCodes :=
  ⟨lookup_eq_none_iff, rfl, fun _ _ hc hrun hpad => ⟨_, deliverSymbol_of_none hc hrun hpad, rfl⟩⟩

/-- Settles O9: the twins have one value, and a symbol with a value acts through the value alone. -/
theorem lettersAreCaseInsensitive : Obligations.LettersAreCaseInsensitive := by
  intro c hlo hhi
  have hupper : lookup c = .value (BitVec.ofNat 5 (c.toNat - 0x41)) := (lookup_eq_value_iff _ _).2 (by bv_omega)
  have hlower : lookup (c + 0x20) = .value (BitVec.ofNat 5 (c.toNat - 0x41)) :=
    (lookup_eq_value_iff _ _).2 (by bv_omega)
  refine ⟨hupper, hlower, fun i j s hi hj => ?_⟩
  rw [exec_symbol hi, exec_symbol hj]
  exact deliverSymbol_eq_of_value hupper hlower s

end Sys2Proof.Machine
end

section
/-! The decoder read as a relation between words and rows of the opcode map, and from it the round trips
(30_encoding.md R45 to R54). -/

namespace Sys2Proof

open Sys2Proof.Machine

/-- The SYM8 rows name exactly the codes that have a class. -/
theorem decodeSym8_eq_none_iff (c : Byte) : decodeSym8 c = none ↔ lookup c = .none := by
  have hcodes : sym8Rows.map (fun r => r.1.toNat) =
      List.range' 0x41 26 ++ List.range' 0x61 26 ++ List.range' 0x32 6 ++ [0x3D] := rfl
  have hunlisted : decodeSym8 c = none ↔ c.toNat ∉ sym8Rows.map (fun r => r.1.toNat) := by
    simp only [decodeSym8, Option.map_eq_none_iff, List.find?_eq_none, beq_iff_eq, List.mem_map, BitVec.toNat_inj,
      not_exists, not_and]
  rw [hunlisted, hcodes, lookup_eq_none_iff]
  simp only [List.mem_append, List.mem_range'_1, List.mem_singleton]
  omega

theorem wf_of_mem_sym8Rows : ∀ r ∈ sym8Rows, r.2.wf = true := by decide

theorem wf_decodeSymbolCommand (c : Byte) : (decodeSymbolCommand c).wf = true := by
  unfold decodeSymbolCommand
  cases h : decodeSym8 c with
  | none => exact beq_iff_eq.2 ((decodeSym8_eq_none_iff c).1 h)
  | some i =>
    obtain ⟨r, hr, rfl⟩ := Option.map_eq_some_iff.1 h
    exact wf_of_mem_sym8Rows r (List.mem_of_find?_eq_some hr)

/-- A well-formed instruction that delivers a symbol is the one its symbol decodes to. -/
theorem decodeSymbolCommand_of_symbolOf {i : Instr} {c : Byte} (hwf : i.wf = true) (h : symbolOf i = some c) :
    decodeSymbolCommand c = i := by
  cases i with
  | b32Sym d =>
    have hd : d = c := by simpa [symbolOf, encode] using h
    have hnone : decodeSym8 c = none := (decodeSym8_eq_none_iff c).2 (hd ▸ beq_iff_eq.1 hwf)
    simp [decodeSymbolCommand, hnone, hd]
  | rdreg | b32Rdb | trnPush | digRdc => simp [symbolOf, encode] at h
  | sreset | b32Start | b32End | trnClr | trnGo | digGo => cases h
  | _ => cases Option.some.inj h; rfl

/-- The word of an instruction that delivers a symbol is `B32.SYM` with that symbol. -/
theorem encode_of_symbolOf {i : Instr} {c : Byte} (h : symbolOf i = some c) : encode i = commandWord 0x11 c := by
  unfold symbolOf at h
  split at h
  · next hop => rw [← hop, ← Option.some.inj h, commandWord_fields]
  · cases h

/-- Every row fixes the whole `op` field of the words that select it. -/
theorem opField_of_selects {r : CommandRow} (hr : r ∈ commandRows) {w : CommandWord} (h : r.selects w = true) :
    opField w = opField r.pattern := by
  have hmask : ∀ r ∈ commandRows, opField r.mask = BitVec.allOnes 8 := by decide
  have hand : opField (w &&& r.mask) = opField w &&& opField r.mask := BitVec.extractLsb'_and
  rw [← eq_of_beq h, hand, hmask r hr, BitVec.and_allOnes]

/-- No two rows have one operation code, so a word selects at most one row (R48). -/
theorem row_unique {r r' : CommandRow} (hr : r ∈ commandRows) (hr' : r' ∈ commandRows) {w : CommandWord}
    (h : r.selects w = true) (h' : r'.selects w = true) : r = r' := by
  have hops : (commandRows.map fun r => opField r.pattern).Nodup := by decide
  exact List.inj_on_of_nodup_map hops hr hr' ((opField_of_selects hr h).symm.trans (opField_of_selects hr' h'))

/-- A word decodes to what the row it selects builds from its operand; the order of the rows does not matter. -/
theorem decode_eq_ok_iff {w : CommandWord} {i : Instr} :
    decode w = .ok i ↔ ∃ r ∈ commandRows, r.selects w = true ∧ r.build (argField w) = i := by
  unfold decode
  cases hf : commandRows.find? (fun r => r.selects w) with
  | none =>
    have hnone := List.find?_eq_none.1 hf
    simp only [reduceCtorEq, false_iff]
    rintro ⟨r, hr, hsel, -⟩
    exact hnone r hr hsel
  | some r =>
    have hr := List.mem_of_find?_eq_some hf
    have hsel : r.selects w = true := by simpa using List.find?_some hf
    constructor
    · intro h
      exact ⟨r, hr, hsel, Except.ok.inj h⟩
    · rintro ⟨r', hr', hsel', rfl⟩
      rw [row_unique hr hr' hsel hsel']

/-- A row with an operand decodes its operation code with every operand. -/
theorem decode_commandWord {op : Byte} {build : Byte → Instr} (hr : ⟨commandWord op 0, 0xFF00, build⟩ ∈ commandRows)
    (arg : Byte) : decode (commandWord op arg) = .ok (build arg) :=
  decode_eq_ok_iff.2 ⟨_, hr, beq_iff_eq.2 (commandWord_masked op arg), congrArg build (argField_commandWord op arg)⟩

/-- Row `B32.SYM` of the opcode map. -/
theorem decode_symbolWord (c : Byte) : decode (commandWord 0x11 c) = .ok (decodeSymbolCommand c) :=
  decode_commandWord (List.mem_of_getElem? (i := 3) rfl) c

theorem decode_encode {i : Instr} (hwf : i.wf = true) : decode (encode i) = .ok i := by
  rcases instr_shapes i with ⟨n, rfl⟩ | rfl | rfl | rfl | ⟨n, rfl⟩ | rfl | ⟨b, rfl⟩ | rfl | rfl | ⟨n, rfl⟩ | ⟨c, hc⟩
  · exact decode_commandWord (List.mem_of_getElem? (i := 0) rfl) n
  · rfl
  · rfl
  · rfl
  · exact decode_commandWord (List.mem_of_getElem? (i := 5) rfl) n
  · rfl
  · exact decode_commandWord (List.mem_of_getElem? (i := 7) rfl) b
  · rfl
  · rfl
  · exact decode_commandWord (List.mem_of_getElem? (i := 10) rfl) n
  · rw [encode_of_symbolOf hc, decode_symbolWord, decodeSymbolCommand_of_symbolOf hwf hc]

/-- Every row builds well-formed instructions only. -/
theorem wf_build : ∀ r ∈ commandRows, ∀ arg, (r.build arg).wf = true := by
  simp only [commandRows, List.cons_append, List.nil_append, List.forall_mem_cons]
  exact ⟨fun _ => rfl, fun _ => rfl, fun _ => rfl, wf_decodeSymbolCommand, fun _ => rfl, fun _ => rfl, fun _ => rfl,
    fun _ => rfl, fun _ => rfl, fun _ => rfl, fun _ => rfl, nofun⟩

theorem wf_of_decode_eq_ok {w : CommandWord} {i : Instr} (h : decode w = .ok i) : i.wf = true := by
  obtain ⟨r, hr, -, rfl⟩ := decode_eq_ok_iff.1 h
  exact wf_build r hr _

/-- Settles O2: the word of a well-formed instruction selects the row that builds it. -/
theorem decodeOfEncode : Obligations.DecodeOfEncode := fun _ hwf => decode_encode hwf

/-- Settles O3: every row builds well-formed instructions, and the word that selects it is their word. -/
theorem encodeOfDecode : Obligations.EncodeOfDecode :=
  fun _ _ h => ⟨wf_of_decode_eq_ok h, encode_of_decode_eq_ok h⟩

/-- Settles O1: each word is evaluated. -/
theorem specWordsDecode : Obligations.SpecWordsDecode :=
  ⟨rfl, rfl, rfl, rfl, rfl, rfl, rfl, rfl, rfl, rfl, rfl, rfl, rfl, rfl, rfl, rfl, rfl⟩

end Sys2Proof
end

section
/-! Words put together from a high and a low field, read as numbers: the response word (30_encoding.md R46) and the
command word of a symbol (R47, R48). -/

namespace Sys2Proof.Machine

/-- Two fields that fill a word make the number of the high one, shifted past the low one, plus the low one. -/
theorem toNat_fields {m n w : Nat} (hw : m + n = w) (a : BitVec m) (b : BitVec n) :
    (a.setWidth w <<< n ||| b.setWidth w).toNat = 2 ^ n * a.toNat + b.toNat := by
  have ha : a.toNat < 2 ^ w := a.isLt.trans_le (Nat.pow_le_pow_right (by decide) (by omega))
  have hb : b.toNat < 2 ^ w := b.isLt.trans_le (Nat.pow_le_pow_right (by decide) (by omega))
  have hshift : 2 ^ n * a.toNat < 2 ^ w := by
    rw [← hw, Nat.pow_add, Nat.mul_comm]
    exact Nat.mul_lt_mul_of_pos_right a.isLt (Nat.two_pow_pos n)
  rw [Nat.two_pow_add_eq_or_of_lt b.isLt, BitVec.toNat_or, BitVec.toNat_shiftLeft, BitVec.toNat_setWidth,
    BitVec.toNat_setWidth, Nat.mod_eq_of_lt ha, Nat.mod_eq_of_lt hb, Nat.shiftLeft_eq, Nat.mul_comm,
    Nat.mod_eq_of_lt hshift]

theorem symbolWord_eq (c : Byte) : BitVec.ofNat 16 (0x1100 + c.toNat) = commandWord 0x11 c := by
  apply BitVec.eq_of_toNat_eq
  rw [commandWord, toNat_fields (w := 16) rfl]
  bv_omega

theorem symbolOf_decodeSymbolCommand (c : Byte) : symbolOf (decodeSymbolCommand c) = some c := by
  simp [symbolOf, encode_decodeSymbolCommand]

/-- Settles O6: the word selects row `B32.SYM`, and every instruction with that symbol is the one shared operation. -/
theorem symbolRowsMeanSymbolCommand : Obligations.SymbolRowsMeanSymbolCommand :=
  ⟨fun c => ⟨_, symbolWord_eq c ▸ decode_symbolWord c, symbolOf_decodeSymbolCommand c⟩, fun _ _ h s => exec_symbol h s⟩

/-- The six fault codes are the numbers 0 to 5 (60_exceptions.md R121). -/
theorem FaultCode.code_le_five (fc : FaultCode) : fc.code.toNat ≤ 5 := by
  cases fc <;> decide

/-- Settles O13: `fc` and the data are the two fields of the response word. -/
theorem responseWordLayout : Obligations.ResponseWordLayout :=
  ⟨fun r => toNat_fields rfl r.fc.code r.data, rfl, rfl, rfl, rfl, rfl, rfl, FaultCode.code_le_five⟩

end Sys2Proof.Machine
end

section
/-! One equation per case of a symbol command and of a value (40_b32_decode.md R66 to R71), and what the B32 commands
do in each. -/

namespace Sys2Proof

open Sys2Proof.Machine

/-- A word that decodes to an instruction is that instruction's one word. -/
theorem isWordOf_of_decode {i : Instr} {w : CommandWord} (h : decode w = .ok i) : IsWordOf i w := fun _ =>
  ⟨fun hv => (encode_of_decode_eq_ok hv).symm.trans (encode_of_decode_eq_ok h), fun hv => hv ▸ h⟩

/-- A command word as the number `2^8 * op + arg` (30_encoding.md R57). -/
theorem ofNat_opArg (op arg : Byte) : BitVec.ofNat 16 (2 ^ 8 * op.toNat + arg.toNat) = commandWord op arg := by
  have hop := op.isLt
  apply BitVec.eq_of_toNat_eq
  rw [commandWord, toNat_fields (w := 16) rfl, BitVec.toNat_ofNat, Nat.mod_eq_of_lt (by omega)]

end Sys2Proof

namespace Sys2Proof.Machine

open Sys2Proof.Config

variable {s : State} {c : Byte}

/-- `=` is the one code of class PAD. -/
theorem eq_padCode_of_lookup (h : lookup c = .pad) : c = padCode :=
  BitVec.eq_of_toNat_eq ((lookup_eq_pad_iff c).1 h)

theorem deliverSymbol_of_not_run (h : s.b32.st ≠ .run) : deliverSymbol c s = raise .sequence s := by
  simp [deliverSymbol, callOpen, h]

theorem deliverSymbol_after_padding (hrun : s.b32.st = .run) (hpad : s.b32.pad = true) (hc : lookup c ≠ .pad) :
    deliverSymbol c s = raise (.invalidCharacter padCode) s := by
  simp [deliverSymbol, callOpen, hrun, hpad, hc]

theorem deliverSymbol_of_pad (hrun : s.b32.st = .run) (hc : lookup c = .pad) :
    deliverSymbol c s = respondOk 0 (setPad s) := by
  simp [deliverSymbol, callOpen, hrun, hc]

theorem deliverSymbol_of_value {v : SymValue} (hrun : s.b32.st = .run) (hpad : s.b32.pad = false)
    (hc : lookup c = .value v) : deliverSymbol c s = acceptValue v s := by
  simp [deliverSymbol, callOpen, hrun, hpad, hc]

theorem acceptValue_of_fits (h : 5 < s.b32.brem.toNat) (v : SymValue) :
    acceptValue v s = respondOk 0 (fitsState v s) := by
  rcases acceptValue_cases v s with ⟨-, he⟩ | ⟨hle, -⟩ | ⟨hle, -⟩ | ⟨-, -, he⟩
  · exact he
  · omega
  · omega
  · simp [acceptValue, h, acceptFits, respondOk] at he

theorem acceptValue_of_straddles (h : s.b32.brem.toNat ≤ 5) (hroom : s.outMax.holds s.b32.ocnt = true)
    (v : SymValue) : acceptValue v s = respondOk 0 (straddlesState v s) := by
  rcases acceptValue_cases v s with ⟨hlt, -⟩ | ⟨-, hfull, -⟩ | ⟨-, -, he⟩ | ⟨hout, -⟩
  · omega
  · simp [hfull, Capacity.holds] at hroom
  · exact he
  · simp [hroom] at hout

theorem acceptValue_of_full (h : s.b32.brem.toNat ≤ 5) (hfull : s.outMax = .bytes s.b32.ocnt) (v : SymValue) :
    acceptValue v s = raise .capacity s := by
  rcases acceptValue_cases v s with ⟨hlt, -⟩ | ⟨-, -, he⟩ | ⟨-, hroom, -⟩ | ⟨-, ⟨n, hcap, hlt⟩, -⟩
  · omega
  · exact he
  · simp [hfull, Capacity.holds] at hroom
  · obtain rfl := Capacity.bytes.inj (hfull.symm.trans hcap)
    omega

theorem fitsState_cur_toNat (v : SymValue) (s : State) : (fitsState v s).b32.cur.toNat =
    s.b32.cur.toNat ||| v.toNat * 2 ^ (s.b32.brem.toNat - 5) % 2 ^ 8 := by
  simp [fitsState, shiftLeft]

theorem fitsState_brem_toNat (v : SymValue) (s : State) :
    (fitsState v s).b32.brem.toNat = s.b32.brem.toNat - 5 := by
  simp [fitsState]; omega

theorem completedByte_toNat (v : SymValue) (s : State) :
    (completedByte v s).toNat = s.b32.cur.toNat ||| v.toNat / 2 ^ (5 - s.b32.brem.toNat) := by
  have hv : v.toNat / 2 ^ (5 - s.b32.brem.toNat) ≤ v.toNat := Nat.div_le_self _ _
  have hlt : v.toNat / 2 ^ (5 - s.b32.brem.toNat) < 256 := by omega
  simp [completedByte, shiftRight, Nat.mod_eq_of_lt hlt]

theorem straddlesState_cur_toNat (v : SymValue) (s : State) :
    (straddlesState v s).b32.cur.toNat = v.toNat * 2 ^ (3 + s.b32.brem.toNat) % 2 ^ 8 := by
  simp [straddlesState, shiftLeft]

theorem straddlesState_brem_toNat (v : SymValue) (h : s.b32.brem.toNat ≤ 5) :
    (straddlesState v s).b32.brem.toNat = s.b32.brem.toNat + 3 := by
  simp [straddlesState]; omega

theorem byteAt_straddlesState_same (v : SymValue) (h : Memory.wf s.b32.out = true) :
    byteAt .out s.b32.ocnt (straddlesState v s) = completedByte v s :=
  Memory.read_write_same _ _ h

theorem byteAt_straddlesState_other {j : Nat} (v : SymValue) (h : j ≠ s.b32.ocnt) :
    byteAt .out j (straddlesState v s) = byteAt .out j s :=
  Memory.read_write_other h _ _

/-- Settles O16: the first check of a symbol command. -/
theorem symbolOutsideRunIsRefused : Obligations.SymbolOutsideRunIsRefused :=
  fun _ _ s hi hrun => (exec_symbol hi s).trans (deliverSymbol_of_not_run hrun)

/-- Settles O17: every code but `=` is of another class than PAD. -/
theorem symbolAfterPaddingFaults : Obligations.SymbolAfterPaddingFaults := by
  intro i c s hi hrun hpad hc
  have hclass : lookup c ≠ .pad := fun h => hc (eq_padCode_of_lookup h)
  rw [exec_symbol hi, deliverSymbol_after_padding hrun hpad hclass]
  rfl

/-- Settles O18: the branch of `=` comes without a look at PAD. -/
theorem paddingIsAccepted : Obligations.PaddingIsAccepted :=
  fun _ s hi hrun => (exec_symbol hi s).trans (deliverSymbol_of_pad hrun rfl)

/-- Settles O19, by the branch of R69. -/
theorem invalidSymbolFaults : Obligations.InvalidSymbolFaults :=
  fun _ _ s hi hrun hpad hc => (exec_symbol hi s).trans (deliverSymbol_of_none hc hrun hpad)

/-- Settles O20: the state after is `fitsState`. -/
theorem fittingValueIsPacked : Obligations.FittingValueIsPacked := by
  intro i c v s hi hc hrun hpad hfit
  refine ⟨respond .ok 0 (fitsState v s), ?_, fitsState_cur_toNat v s, fitsState_brem_toNat v s, rfl, rfl, rfl, rfl,
    rfl, rfl, rfl, fun _ => rfl, rfl, rfl, rfl, rfl⟩
  rw [exec_symbol hi, deliverSymbol_of_value hrun hpad hc, acceptValue_of_fits hfit]
  rfl

/-- Settles O21: the state after is `straddlesState` where the buffer has room, a recorded fault where it is full. -/
theorem straddlingValueIsPacked : Obligations.StraddlingValueIsPacked := by
  intro i c v s hi hc hrun hpad hstr
  have hexec : exec i s = acceptValue v s := (exec_symbol hi s).trans (deliverSymbol_of_value hrun hpad hc)
  constructor
  · intro hroom
    refine ⟨respond .ok 0 (straddlesState v s), ?_, fun hwf => ?_, fun j hj => ?_, rfl,
      straddlesState_cur_toNat v s, straddlesState_brem_toNat v hstr, rfl, rfl, rfl, rfl, rfl, rfl, rfl, rfl, rfl, rfl⟩
    · rw [hexec, acceptValue_of_straddles hstr hroom]
      rfl
    · rw [byteAt_respond, byteAt_straddlesState_same v hwf, completedByte_toNat]
    · rw [byteAt_respond, byteAt_straddlesState_other v hj]
  · intro hfull
    rw [hexec, acceptValue_of_full hstr hfull]
    rfl

/-- Settles O15: what START does depends on no register. -/
theorem startOpensADecodeCall : Obligations.StartOpensADecodeCall :=
  ⟨isWordOf_of_decode rfl, fun s => ⟨respond .ok 0 (openCall s), rfl, rfl, rfl, rfl, rfl, rfl, rfl, rfl, rfl, rfl,
    fun _ => rfl, rfl, rfl, rfl, rfl⟩⟩

theorem execB32End_of_not_run (h : s.b32.st ≠ .run) : execB32End s = raise .sequence s := by
  simp [execB32End, callOpen, h]

theorem execB32End_of_complete (hrun : s.b32.st = .run) (h : expectedLength s ≤ s.b32.ocnt) :
    execB32End s = respondOk (BitVec.ofNat 32 s.b32.ocnt) (closeCall s) := by
  simp [execB32End, callOpen, hrun, finalFlush, h.not_gt]

theorem execB32End_of_flush (hrun : s.b32.st = .run) (h : s.b32.ocnt < expectedLength s)
    (hroom : s.outMax.holds s.b32.ocnt = true) :
    execB32End s = respondOk (BitVec.ofNat 32 (s.b32.ocnt + 1)) (flushedState s) := by
  rcases execB32End_cases s with ⟨hclosed, -⟩ | ⟨-, hle, -⟩ | ⟨-, -, -, he⟩ | ⟨-, -, hout, -⟩
  · exact absurd hrun hclosed
  · omega
  · exact he
  · simp [hroom] at hout

/-- Settles O22, the closed call and the two ways to close an open one. -/
theorem endClosesTheCall : Obligations.EndClosesTheCall := by
  refine ⟨isWordOf_of_decode rfl, fun s => ⟨execB32End_of_not_run, execB32End_of_complete, fun hrun hlt hroom => ?_⟩⟩
  exact ⟨respond .ok (BitVec.ofNat 32 (s.b32.ocnt + 1)) (flushedState s), execB32End_of_flush hrun hlt hroom, rfl, rfl,
    rfl, fun hwf => Memory.read_write_same _ _ hwf, fun _ hj => Memory.read_write_other hj _ _, rfl, rfl, rfl, rfl,
    rfl, rfl, rfl, rfl, rfl, rfl⟩

/-- Settles O23: by R27 item 3 every complete byte has been written, and OCNT is the length. -/
theorem finalFlushNeverFires : Obligations.FinalFlushNeverFires := by
  intro s h hrun
  rw [← h.ocntCounts (by simp [hrun])]
  exact execB32End_of_complete hrun (expectedLength_le_ocnt h hrun)

/-- Settles O24, by the cases of RDB; the stop needs an index the capacity does not hold. -/
theorem rdbReadsTheSecret : Obligations.RdbReadsTheSecret := by
  refine ⟨fun i => isWordOf_of_decode ?_, fun i s => ?_⟩
  · exact (congrArg decode (ofNat_opArg 0x13 i)).trans (decode_encode (i := .b32Rdb i) rfl)
  · change (_ → execB32Rdb i s = _) ∧ (_ → _ → execB32Rdb i s = _) ∧ (_ → _ → _ → execB32Rdb i s = _)
    rcases execB32Rdb_cases i s with ⟨hst, he⟩ | ⟨hst, hle, he⟩ | ⟨hst, hlt, he⟩ | ⟨hst, hlt, hout, -⟩
    · exact ⟨fun _ => he, fun h => absurd h hst, fun h => absurd h hst⟩
    · exact ⟨fun h => absurd hst h, fun _ _ => he, fun _ h => absurd h hle.not_gt⟩
    · exact ⟨fun h => absurd hst h, fun _ h => absurd hlt h.not_gt, fun _ _ _ => he⟩
    · refine ⟨fun h => absurd hst h, fun _ h => absurd hlt h.not_gt, fun _ _ hfits => ?_⟩
      simp [holds_of_fits hfits hlt] at hout

end Sys2Proof.Machine
end

section
/-! Bit strings as numbers and as bytes (20_memory.md R32): what regrouping does with the first eight bits, with a rest
shorter than a byte, and with the length (40_b32_decode.md R74). -/

namespace Sys2Proof.Machine

-- # Bit strings as numbers

theorem numberOfBits_concat (a : List Bool) (x : Bool) :
    numberOfBits (a ++ [x]) = 2 * numberOfBits a + x.toNat := by
  simp [numberOfBits, List.foldl_append]

theorem numberOfBits_append (a b : List Bool) :
    numberOfBits (a ++ b) = numberOfBits a * 2 ^ b.length + numberOfBits b := by
  induction b using List.reverseRecOn with
  | nil => simp [numberOfBits]
  | append_singleton b x ih =>
    rw [← List.append_assoc, numberOfBits_concat, numberOfBits_concat, ih, List.length_append, List.length_singleton,
      Nat.pow_succ]
    ring

theorem numberOfBits_lt (a : List Bool) : numberOfBits a < 2 ^ a.length := by
  induction a using List.reverseRecOn with
  | nil => simp [numberOfBits]
  | append_singleton a x ih =>
    rw [numberOfBits_concat, List.length_append, List.length_singleton, Nat.pow_succ]
    have := Bool.toNat_lt x
    omega

/-- The low bits of a bit string are a remainder. -/
theorem numberOfBits_drop (a : List Bool) (k : Nat) :
    numberOfBits (a.drop k) = numberOfBits a % 2 ^ (a.length - k) := by
  have hsplit := numberOfBits_append (a.take k) (a.drop k)
  have hlt := numberOfBits_lt (a.drop k)
  rw [List.take_append_drop] at hsplit
  rw [List.length_drop] at hsplit hlt
  rw [hsplit, Nat.mul_comm, Nat.mul_add_mod, Nat.mod_eq_of_lt hlt]

/-- The high bits of a bit string are a quotient. -/
theorem numberOfBits_take (a : List Bool) (k : Nat) :
    numberOfBits (a.take k) = numberOfBits a / 2 ^ (a.length - k) := by
  have hsplit := numberOfBits_append (a.take k) (a.drop k)
  have hlt := numberOfBits_lt (a.drop k)
  rw [List.take_append_drop] at hsplit
  rw [List.length_drop] at hsplit hlt
  rw [hsplit, Nat.mul_comm, Nat.mul_add_div (Nat.two_pow_pos _), Nat.div_eq_of_lt hlt, Nat.add_zero]

/-- The low bits of a number, most significant first, write it modulo a power of two. -/
theorem numberOfBits_testBit (n k : Nat) : numberOfBits ((List.range k).reverse.map n.testBit) = n % 2 ^ k := by
  induction k with
  | zero => rw [Nat.pow_zero, Nat.mod_one]; rfl
  | succ k ih =>
    have hbit : numberOfBits [n.testBit k] = n / 2 ^ k % 2 := by rw [← Nat.toNat_testBit]; simp [numberOfBits]
    rw [List.range_succ, List.reverse_append, List.map_append, numberOfBits_append, ih, Nat.mod_pow_succ]
    simp [hbit, Nat.mul_comm, Nat.add_comm]

@[simp] theorem numberOfBits_valueBits (v : SymValue) : numberOfBits (valueBits v) = v.toNat :=
  (numberOfBits_testBit v.toNat 5).trans (Nat.mod_eq_of_lt v.isLt)

@[simp] theorem numberOfBits_byteBits (b : Byte) : numberOfBits (byteBits b) = b.toNat :=
  (numberOfBits_testBit b.toNat 8).trans (Nat.mod_eq_of_lt b.isLt)

@[simp] theorem length_valueBits (v : SymValue) : (valueBits v).length = 5 := rfl

@[simp] theorem length_byteBits (b : Byte) : (byteBits b).length = 8 := rfl

theorem length_flatMap_valueBits (vs : List SymValue) : (vs.flatMap valueBits).length = 5 * vs.length := by
  simp [List.length_flatMap, Nat.mul_comm]

-- # Regrouping

/-- The first eight bits make the first byte. -/
theorem bytesOfBits_append {a : List Bool} (ha : a.length = 8) (rest : List Bool) :
    bytesOfBits (a ++ rest) = BitVec.ofNat 8 (numberOfBits a) :: bytesOfBits rest :=
  match a, ha with
  | [_, _, _, _, _, _, _, _], _ => rfl

/-- Fewer than eight bits are discarded. -/
theorem bytesOfBits_of_length_lt {a : List Bool} (ha : a.length < 8) : bytesOfBits a = [] := by
  unfold bytesOfBits
  split
  · simp only [List.length_cons] at ha; omega
  · rfl

theorem length_bytesOfBits (bits : List Bool) : (bytesOfBits bits).length = bits.length / 8 := by
  by_cases hshort : bits.length < 8
  · rw [bytesOfBits_of_length_lt hshort, Nat.div_eq_of_lt hshort, List.length_nil]
  · have hbyte : (bits.take 8).length = 8 := by simp; omega
    have hrest := length_bytesOfBits (bits.drop 8)
    rw [← List.take_append_drop 8 bits, bytesOfBits_append hbyte, List.length_cons, List.length_append, hbyte, hrest]
    omega
termination_by bits.length

/-- Regrouping the bits of a byte string gives the bytes back; fewer than eight bits after them are discarded. -/
theorem bytesOfBits_flatMap_byteBits (bytes : List Byte) {rest : List Bool} (hrest : rest.length < 8) :
    bytesOfBits (bytes.flatMap byteBits ++ rest) = bytes := by
  induction bytes with
  | nil => exact bytesOfBits_of_length_lt hrest
  | cons b bytes ih =>
    rw [List.flatMap_cons, List.append_assoc, bytesOfBits_append (length_byteBits b), ih, numberOfBits_byteBits,
      BitVec.ofNat_toNat, BitVec.setWidth_eq]

-- # Whole strings

/-- A string has alphabet values exactly where each of its symbols has its value. -/
theorem symbolValues_eq_ok_iff {cs : List Byte} {vs : List SymValue} :
    symbolValues cs = .ok vs ↔ cs.map lookup = vs.map SymClass.value := by
  induction cs generalizing vs with
  | nil => cases vs <;> simp [symbolValues]
  | cons c cs ih =>
    cases hc : lookup c with
    | value v =>
      cases vs with
      | nil => cases h : symbolValues cs <;> simp [symbolValues, hc, h, Except.map]
      | cons w ws => cases h : symbolValues cs <;> simp [symbolValues, hc, h, Except.map, ← ih]
    | pad | none => cases vs <;> simp [symbolValues, hc]

/-- The first symbol without a value is the one reported. -/
theorem symbolValues_cons_eq_error {c d : Byte} {cs : List Byte} (h : symbolValues (c :: cs) = .error d) :
    (∃ v, lookup c = .value v ∧ symbolValues cs = .error d) ∨ (c = d ∧ (lookup c = .pad ∨ lookup c = .none)) := by
  cases hc : lookup c with
  | value v =>
    cases hcs : symbolValues cs with
    | error e => simp_all [symbolValues, Except.map]
    | ok vs => simp [symbolValues, hc, hcs, Except.map] at h
  | pad | none => simp_all [symbolValues]

theorem wholeDecode_eq_ok {str bytes : List Byte} (h : wholeDecode str = .ok bytes) :
    ∃ vs : List SymValue, (trimPadding str).map lookup = vs.map SymClass.value ∧ bytesOfBits (vs.flatMap valueBits) = bytes := by
  unfold wholeDecode at h
  cases hvs : symbolValues (trimPadding str) with
  | error e => simp [hvs, Except.map] at h
  | ok vs => exact ⟨vs, symbolValues_eq_ok_iff.1 hvs, by simpa [hvs, Except.map] using h⟩

theorem wholeDecode_eq_error {str : List Byte} {c : Byte} (h : wholeDecode str = .error c) :
    symbolValues (trimPadding str) = .error c := by
  unfold wholeDecode at h
  cases hvs : symbolValues (trimPadding str) with
  | error e => simpa [hvs, Except.map] using h
  | ok vs => simp [hvs, Except.map] at h

/-- What trimming removes is padding. -/
theorem exists_eq_trimPadding_append (str : List Byte) :
    ∃ k, str = trimPadding str ++ List.replicate k padCode := by
  have hpad : ∀ c ∈ str.rtakeWhile (· == padCode), c = padCode := fun c hc =>
    eq_of_beq (List.mem_rtakeWhile_imp (p := (· == padCode)) hc)
  refine ⟨(str.rtakeWhile (· == padCode)).length, ?_⟩
  rw [← List.eq_replicate_of_mem hpad]
  exact (List.rdropWhile_append_rtakeWhile (p := (· == padCode))).symm

theorem trimPadding_getLast?_ne (str : List Byte) : (trimPadding str).getLast? ≠ some padCode := by
  intro hlast
  obtain ⟨hne, hpad⟩ := List.mem_getLast?_eq_getLast hlast
  exact List.rdropWhile_last_not (· == padCode) str hne (beq_iff_eq.2 hpad.symm)

/-- A string without padding is what is left of it with any padding. -/
theorem trimPadding_append_replicate {str : List Byte} (hstr : padCode ∉ str) (k : Nat) :
    trimPadding (str ++ List.replicate k padCode) = str := by
  have hpads : ∀ c ∈ List.replicate k padCode, (c == padCode) = true := fun c hc => by simp [List.eq_of_mem_replicate hc]
  have hself : str.rdropWhile (· == padCode) = str := List.rdropWhile_eq_self_iff.2 fun hne hlast =>
    hstr (beq_iff_eq.1 hlast ▸ List.getLast_mem hne)
  rw [trimPadding, List.reverse_append, List.reverse_replicate, List.dropWhile_append_of_pos hpads]
  exact hself

/-- Settles O46: each symbol of the trimmed string gives five bits. -/
theorem decodedLength : Obligations.DecodedLength := by
  intro str bytes h
  obtain ⟨vs, hvs, rfl⟩ := wholeDecode_eq_ok h
  have hlen : (trimPadding str).length = vs.length := by simpa using congrArg List.length hvs
  rw [length_bytesOfBits, length_flatMap_valueBits, hlen]

end Sys2Proof.Machine
end

section
/-! The streamed decode as a machine state that holds a bit string: complete bytes in OUT, the rest in CUR
(40_b32_decode.md R65 to R75). Each command of a call moves the bit string on as D0's whole-string decode does. -/

namespace Sys2Proof.Machine

open Sys2Proof.Config

-- # The bit string an open call holds

/-- The bytes the call has decoded: those of `OUT` below `OCNT`. -/
def decodedBytes (r : B32Regs) : List Byte := (List.range r.ocnt).map r.out.read

@[simp] theorem length_decodedBytes (r : B32Regs) : (decodedBytes r).length = r.ocnt := by simp [decodedBytes]

theorem decodedBytes_getD {s : State} {j : Nat} (hj : j < s.b32.ocnt) :
    (decodedBytes s.b32).getD j 0 = byteAt .out j s := by
  simp [decodedBytes, hj, byteAt_out]

/-- The completed byte follows the bytes decoded before it (R71). -/
theorem decodedBytes_straddlesState {s : State} (v : SymValue) (hwf : Memory.wf s.b32.out = true) :
    decodedBytes (straddlesState v s).b32 = decodedBytes s.b32 ++ [completedByte v s] := by
  have hold : ∀ j ∈ List.range s.b32.ocnt, (straddlesState v s).b32.out.read j = s.b32.out.read j :=
    fun j hj => byteAt_straddlesState_other v (List.mem_range.1 hj).ne
  have hnew : (straddlesState v s).b32.out.read s.b32.ocnt = completedByte v s := byteAt_straddlesState_same v hwf
  change (List.range (s.b32.ocnt + 1)).map _ = _
  rw [List.range_succ, List.map_append, List.map_congr_left hold, List.map_singleton, hnew]
  rfl

/-- The registers hold `bits`: every complete byte is in `OUT`, and `CUR` holds the bits `rest` that complete none, at
its most significant end. -/
structure Packs (bits rest : List Bool) (r : B32Regs) : Prop where
  length_rest : rest.length + r.brem.toNat = 8
  cur_toNat : r.cur.toNat = numberOfBits rest * 2 ^ r.brem.toNat
  regroup : ∀ more, bytesOfBits (bits ++ more) = decodedBytes r ++ bytesOfBits (rest ++ more)

/-- OR with a number below the free bits is addition. -/
theorem mul_two_pow_or {a b k : Nat} (hb : b < 2 ^ k) : a * 2 ^ k ||| b = a * 2 ^ k + b := by
  rw [Nat.mul_comm, Nat.two_pow_add_eq_or_of_lt hb]

theorem packs_openCall (s : State) : Packs [] [] (openCall s).b32 where
  length_rest := rfl
  cur_toNat := rfl
  regroup _ := rfl

section
variable {bits rest : List Bool} {s : State}

/-- A value that fits joins the bits in `CUR` (R70). -/
theorem packs_fitsState (h : Packs bits rest s.b32) (hfit : 5 < s.b32.brem.toNat) (v : SymValue) :
    Packs (bits ++ valueBits v) (rest ++ valueBits v) (fitsState v s).b32 where
  length_rest := by
    have := h.length_rest
    rw [fitsState_brem_toNat, List.length_append, length_valueBits]
    omega
  cur_toNat := by
    have hpow : 2 ^ s.b32.brem.toNat = 2 ^ (s.b32.brem.toNat - 5) * 32 := by
      rw [← Nat.pow_sub_mul_pow 2 hfit.le]
    have hlt : v.toNat * 2 ^ (s.b32.brem.toNat - 5) < 2 ^ s.b32.brem.toNat := by
      rw [hpow, Nat.mul_comm]
      exact Nat.mul_lt_mul_of_pos_left v.isLt (Nat.two_pow_pos _)
    have hbyte : 2 ^ s.b32.brem.toNat ≤ 2 ^ 8 := Nat.pow_le_pow_right (by decide) (by have := h.length_rest; omega)
    rw [fitsState_cur_toNat, fitsState_brem_toNat, Nat.mod_eq_of_lt (hlt.trans_le hbyte), h.cur_toNat,
      mul_two_pow_or hlt, numberOfBits_append, numberOfBits_valueBits, length_valueBits, hpow]
    ring
  regroup more := by
    rw [List.append_assoc, h.regroup, List.append_assoc]
    rfl

theorem length_take_valueBits {v : SymValue} {k : Nat} (hk : k ≤ 5) : ((valueBits v).take k).length = k := by
  rw [List.length_take, length_valueBits]; omega

/-- The byte a straddling value completes is written by the bits in `CUR` and the value's high bits. -/
theorem Packs.completedByte_eq (h : Packs bits rest s.b32) (hstr : s.b32.brem.toNat ≤ 5) {v : SymValue} :
    BitVec.ofNat 8 (numberOfBits (rest ++ (valueBits v).take s.b32.brem.toNat)) = completedByte v s := by
  have hhigh : numberOfBits ((valueBits v).take s.b32.brem.toNat) = v.toNat / 2 ^ (5 - s.b32.brem.toNat) := by
    rw [numberOfBits_take, numberOfBits_valueBits, length_valueBits]
  have hlt := numberOfBits_lt ((valueBits v).take s.b32.brem.toNat)
  rw [length_take_valueBits hstr, hhigh] at hlt
  have hnumber : numberOfBits (rest ++ (valueBits v).take s.b32.brem.toNat) = (completedByte v s).toNat := by
    rw [completedByte_toNat, h.cur_toNat, mul_two_pow_or hlt, numberOfBits_append, length_take_valueBits hstr, hhigh]
  rw [hnumber, BitVec.ofNat_toNat, BitVec.setWidth_eq]

/-- A value that straddles completes the byte in `CUR` with its high bits and leaves its low bits there (R71). -/
theorem packs_straddlesState (h : Packs bits rest s.b32) (hwf : Memory.wf s.b32.out = true)
    (hstr : s.b32.brem.toNat ≤ 5) (v : SymValue) :
    Packs (bits ++ valueBits v) ((valueBits v).drop s.b32.brem.toNat) (straddlesState v s).b32 where
  length_rest := by
    rw [straddlesState_brem_toNat v hstr, List.length_drop, length_valueBits]
    omega
  cur_toNat := by
    have hpow : 2 ^ 8 = 2 ^ (5 - s.b32.brem.toNat) * 2 ^ (3 + s.b32.brem.toNat) := by
      rw [← Nat.pow_add]; congr 1; omega
    rw [straddlesState_cur_toNat, straddlesState_brem_toNat v hstr, hpow, Nat.mul_mod_mul_right, numberOfBits_drop,
      numberOfBits_valueBits, length_valueBits, Nat.add_comm 3]
  regroup more := by
    have hfull : (rest ++ (valueBits v).take s.b32.brem.toNat).length = 8 := by
      rw [List.length_append, length_take_valueBits hstr, h.length_rest]
    have hsplit : rest ++ (valueBits v ++ more) =
        (rest ++ (valueBits v).take s.b32.brem.toNat) ++ ((valueBits v).drop s.b32.brem.toNat ++ more) := by
      rw [List.append_assoc, ← List.append_assoc (List.take _ _), List.take_append_drop]
    rw [List.append_assoc, h.regroup, hsplit, bytesOfBits_append hfull, h.completedByte_eq hstr,
      decodedBytes_straddlesState v hwf, List.append_assoc]
    rfl

/-- Padding leaves the bits alone (R68). -/
theorem packs_setPad (h : Packs bits rest s.b32) : Packs bits rest (setPad s).b32 :=
  ⟨h.length_rest, h.cur_toNat, h.regroup⟩

/-- What is decoded is what regrouping gives: the bits in `CUR` make no byte. -/
theorem Packs.decodedBytes_eq (h : Packs bits rest s.b32) (hbrem : 1 ≤ s.b32.brem.toNat) :
    decodedBytes s.b32 = bytesOfBits bits := by
  have hshort : rest.length < 8 := by have := h.length_rest; omega
  have hre := h.regroup []
  rw [List.append_nil, List.append_nil, bytesOfBits_of_length_lt hshort, List.append_nil] at hre
  exact hre.symm

/-- The byte a straddling value completes is among those the bits up to that value make. -/
theorem Packs.ocnt_lt (h : Packs bits rest s.b32) (hstr : s.b32.brem.toNat ≤ 5) (v : SymValue) :
    s.b32.ocnt < (bits.length + 5) / 8 := by
  have hlen := congrArg List.length (h.regroup (valueBits v))
  have hrest := h.length_rest
  simp only [List.length_append, length_bytesOfBits, length_decodedBytes, length_valueBits] at hlen
  omega

end

/-- An open call that began in the units and with the capacity of `s₀`, holds `bits`, and has seen padding or not. -/
structure Decoding (s₀ : State) (bits : List Bool) (pad : Bool) (s : State) : Prop where
  inv : Inv s
  run : s.b32.st = .run
  pad_eq : s.b32.pad = pad
  packs : ∃ rest, Packs bits rest s.b32
  trn : s.trn = s₀.trn
  dig : s.dig = s₀.dig
  outMax : s.outMax = s₀.outMax

-- # One command of a call

section
variable {s₀ s t : State} {bits : List Bool} {pad : Bool} {c : Byte}

/-- An open call does not look at the inputs or the response. -/
theorem Decoding.ports (h : Decoding s₀ bits pad s) (ins : List Input) (r : Option Response) :
    Decoding s₀ bits pad { s with inputs := ins, resp := r } :=
  ⟨h.inv.ports ins r, h.run, h.pad_eq, h.packs, h.trn, h.dig, h.outMax⟩

/-- A symbol the block accepts is answered `OK(0)`. -/
theorem issue_symbol_ok (h : deliverSymbol c { s with inputs := [] } = respondOk 0 t) :
    issue (commandWord 0x11 c) s = .ok (0, respond .ok 0 t) :=
  issue_ok (decode_symbolWord c) ((exec_symbol (symbolOf_decodeSymbolCommand c) _).trans h) rfl

/-- A symbol the block faults ends the sequence with the character of the fault. -/
theorem issue_symbol_invalid {b : Byte}
    (h : deliverSymbol c { s with inputs := [] } = raise (.invalidCharacter b) { s with inputs := [] }) :
    issue (commandWord 0x11 c) s = .error (.invalidCharacter b.toNat) := by
  have hdata : (b.setWidth 32).toNat = b.toNat := BitVec.toNat_setWidth_of_le (by decide)
  rw [← hdata]
  exact issue_invalid (decode_symbolWord c) ((exec_symbol (symbolOf_decodeSymbolCommand c) _).trans h) rfl

theorem issue_start (h : Inv s) : ∃ t, issue 0x1000 s = .ok (0, t) ∧ Decoding s [] false t := by
  have hempty := h.ports [] s.resp
  refine ⟨respond .ok 0 (openCall { s with inputs := [] }), issue_ok (i := .b32Start) rfl rfl rfl, ?_⟩
  exact ⟨inv_respond (inv_openCall hempty) _ _, rfl, rfl, ⟨[], packs_openCall _⟩, rfl, rfl, rfl⟩

/-- An alphabet value joins the bits, if a byte it completes has room. -/
theorem Decoding.acceptValue (h : Decoding s₀ bits false s) (v : SymValue)
    (hroom : s₀.outMax.fits ((bits.length + 5) / 8) = true) :
    ∃ t, acceptValue v s = respondOk 0 t ∧ Decoding s₀ (bits ++ valueBits v) false t := by
  obtain ⟨hinv, hrun, hpad, ⟨rest, hpacks⟩, htrn, hdig, hout⟩ := h
  by_cases hfit : 5 < s.b32.brem.toNat
  · exact ⟨fitsState v s, acceptValue_of_fits hfit v, inv_fitsState hinv hrun hfit v, hrun, hpad,
      ⟨_, packs_fitsState hpacks hfit v⟩, htrn, hdig, hout⟩
  · have hstr : s.b32.brem.toNat ≤ 5 := by omega
    have hholds : s.outMax.holds s.b32.ocnt = true := holds_of_fits (hout ▸ hroom) (hpacks.ocnt_lt hstr v)
    exact ⟨straddlesState v s, acceptValue_of_straddles hstr hholds v, inv_straddlesState hinv hrun hstr hholds v,
      hrun, hpad, ⟨_, packs_straddlesState hpacks hinv.outCanonical hstr v⟩, htrn, hdig, hout⟩

theorem Decoding.issue_value (h : Decoding s₀ bits false s) {v : SymValue} (hc : lookup c = .value v)
    (hroom : s₀.outMax.fits ((bits.length + 5) / 8) = true) :
    ∃ t, issue (commandWord 0x11 c) s = .ok (0, t) ∧ Decoding s₀ (bits ++ valueBits v) false t := by
  have hempty := h.ports [] s.resp
  obtain ⟨t, ht, hdec⟩ := hempty.acceptValue v hroom
  exact ⟨_, issue_symbol_ok ((deliverSymbol_of_value hempty.run hempty.pad_eq hc).trans ht), hdec.ports _ _⟩

theorem Decoding.issue_pad (h : Decoding s₀ bits pad s) (hc : lookup c = .pad) :
    ∃ t, issue (commandWord 0x11 c) s = .ok (0, t) ∧ Decoding s₀ bits true t := by
  have hempty := h.ports [] s.resp
  obtain ⟨rest, hpacks⟩ := hempty.packs
  exact ⟨_, issue_symbol_ok (deliverSymbol_of_pad hempty.run hc), inv_respond (inv_setPad hempty.inv hempty.run) _ _,
    h.run, rfl, ⟨rest, packs_setPad hpacks⟩, h.trn, h.dig, h.outMax⟩

theorem Decoding.issue_none (h : Decoding s₀ bits false s) (hc : lookup c = .none) :
    issue (commandWord 0x11 c) s = .error (.invalidCharacter c.toNat) :=
  issue_symbol_invalid (deliverSymbol_of_none hc h.run h.pad_eq)

theorem Decoding.issue_after_padding (h : Decoding s₀ bits true s) (hc : lookup c ≠ .pad) :
    issue (commandWord 0x11 c) s = .error (.invalidCharacter padCode.toNat) :=
  issue_symbol_invalid (deliverSymbol_after_padding h.run h.pad_eq hc)

/-- The end of a call leaves the bytes of its bit string and answers their number (R72). -/
theorem Decoding.issue_end (h : Decoding s₀ bits pad s) :
    ∃ t, issue 0x1200 s = .ok (BitVec.ofNat 32 (bytesOfBits bits).length, t) ∧ t.b32.st = .done ∧
      decodedBytes t.b32 = bytesOfBits bits ∧ t.trn = s₀.trn ∧ t.dig = s₀.dig := by
  obtain ⟨hinv, hrun, -, ⟨rest, hpacks⟩, htrn, hdig, -⟩ := h.ports [] s.resp
  have hbytes := hpacks.decodedBytes_eq hinv.bremRange.1
  have hexec := execB32End_of_complete hrun (expectedLength_le_ocnt hinv hrun)
  rw [← hbytes, length_decodedBytes]
  exact ⟨_, issue_ok (i := .b32End) rfl hexec rfl, rfl, rfl, htrn, hdig⟩

end

-- # The symbols of a string

/-- A symbol command per character (30_encoding.md R58). -/
def symbolCommands (str : List Byte) : List CommandWord := str.map fun c => commandWord 0x11 c

theorem decodeCommands_eq (str : List Byte) : decodeCommands str = 0x1000 :: (symbolCommands str ++ [0x1200]) := rfl

theorem symbolCommands_append (a b : List Byte) :
    symbolCommands (a ++ b) = symbolCommands a ++ symbolCommands b := List.map_append

theorem issueAll_append_ok {ws vs : List CommandWord} {s t u : State} {ds es : List Data}
    (h : issueAll ws s = .ok (ds, t)) (h' : issueAll vs t = .ok (es, u)) :
    issueAll (ws ++ vs) s = .ok (ds ++ es, u) := by
  simp [issueAll_append, h, h']

theorem issueAll_append_error {ws : List CommandWord} {s : State} {f : HostFailure} (h : issueAll ws s = .error f)
    (vs : List CommandWord) : issueAll (ws ++ vs) s = .error f := by
  simp [issueAll_append, h]

theorem issueAll_cons_of_error {w : CommandWord} {s : State} {f : HostFailure} (h : issue w s = .error f)
    (ws : List CommandWord) : issueAll (w :: ws) s = .error f := by
  simp [issueAll, h]

/-- Fewer bytes fit where more fit. -/
theorem fits_mono {cap : Capacity} {m n : Nat} (hmn : m ≤ n) (h : cap.fits n = true) : cap.fits m = true := by
  cases cap with
  | infinite => rfl
  | bytes k =>
    simp only [Capacity.fits, decide_eq_true_eq] at h ⊢
    omega

section
variable {s₀ : State}

/-- Every symbol of a string of values is accepted, and its five bits join the bit string. -/
theorem Decoding.issueAll_values {cs : List Byte} {vs : List SymValue} (hcs : cs.map lookup = vs.map SymClass.value)
    {bits : List Bool} {s : State} (h : Decoding s₀ bits false s)
    (hroom : s₀.outMax.fits ((bits.length + 5 * cs.length) / 8) = true) :
    ∃ t, issueAll (symbolCommands cs) s = .ok (List.replicate cs.length 0, t) ∧
      Decoding s₀ (bits ++ vs.flatMap valueBits) false t := by
  induction cs generalizing vs bits s with
  | nil =>
    obtain rfl : vs = [] := by simpa using hcs.symm
    exact ⟨s, rfl, by simpa using h⟩
  | cons c cs ih =>
    obtain ⟨v, vs, rfl, hc, htail⟩ : ∃ v ws, vs = v :: ws ∧ lookup c = .value v ∧
        cs.map lookup = ws.map SymClass.value := by
      cases vs with
      | nil => cases hcs
      | cons v ws => exact ⟨v, ws, rfl, List.cons.inj hcs⟩
    rw [List.length_cons] at hroom
    obtain ⟨t, ht, hdec⟩ := h.issue_value hc (fits_mono (by omega) hroom)
    obtain ⟨u, hu, hdone⟩ := ih htail hdec (fits_mono (by simp; omega) hroom)
    refine ⟨u, issueAll_cons_ok ht hu, ?_⟩
    rw [List.flatMap_cons, ← List.append_assoc]
    exact hdone

/-- Padding is accepted however much there is of it (R68). -/
theorem Decoding.issueAll_padding {bits : List Bool} {pad : Bool} {s : State} (h : Decoding s₀ bits pad s) (k : Nat) :
    ∃ pad' t, issueAll (symbolCommands (List.replicate k padCode)) s = .ok (List.replicate k 0, t) ∧
      Decoding s₀ bits pad' t := by
  induction k generalizing pad s with
  | zero => exact ⟨pad, s, rfl, h⟩
  | succ k ih =>
    obtain ⟨t, ht, hdec⟩ := h.issue_pad (c := padCode) rfl
    obtain ⟨pad', u, hu, hdone⟩ := ih hdec
    exact ⟨pad', u, issueAll_cons_ok ht hu, hdone⟩

/-- After padding the first other symbol faults with the padding character (R67). -/
theorem Decoding.issueAll_after_padding {cs : List Byte} (hcs : ∃ c ∈ cs, c ≠ padCode) {bits : List Bool} {s : State}
    (h : Decoding s₀ bits true s) : issueAll (symbolCommands cs) s = .error (.invalidCharacter padCode.toNat) := by
  induction cs generalizing s with
  | nil => simp at hcs
  | cons c cs ih =>
    by_cases hc : c = padCode
    · obtain ⟨t, ht, hdec⟩ := h.issue_pad (c := c) (hc ▸ rfl)
      exact issueAll_cons_error ht (ih (by simpa [hc] using hcs) hdec)
    · exact issueAll_cons_of_error (h.issue_after_padding fun hp => hc (eq_padCode_of_lookup hp)) _

/-- A string that does not end in padding fails with the first symbol that has no value: at that symbol, or, where it is
padding, at the next symbol that is none. -/
theorem Decoding.issueAll_offending {cs : List Byte} {c : Byte} (hcs : symbolValues cs = .error c)
    (hlast : cs.getLast? ≠ some padCode) {bits : List Bool} {s : State} (h : Decoding s₀ bits false s)
    (hroom : s₀.outMax.fits ((bits.length + 5 * cs.length) / 8) = true) :
    issueAll (symbolCommands cs) s = .error (.invalidCharacter c.toNat) := by
  induction cs generalizing bits s with
  | nil => cases hcs
  | cons b cs ih =>
    rcases symbolValues_cons_eq_error hcs with ⟨v, hb, htail⟩ | ⟨rfl, hpad | hnone⟩
    · have hlast' : cs.getLast? ≠ some padCode := fun hp => hlast (by simp [List.getLast?_cons, hp])
      rw [List.length_cons] at hroom
      obtain ⟨t, ht, hdec⟩ := h.issue_value hb (fits_mono (by omega) hroom)
      exact issueAll_cons_error ht (ih htail hlast' hdec (fits_mono (by simp; omega) hroom))
    · obtain rfl : b = padCode := eq_padCode_of_lookup hpad
      obtain ⟨t, ht, hdec⟩ := h.issue_pad hpad
      refine issueAll_cons_error ht (hdec.issueAll_after_padding ?_)
      by_contra hall
      push Not at hall
      rw [List.eq_replicate_of_mem hall] at hlast
      cases hk : cs.length <;> simp [hk, List.getLast?_replicate, List.getLast?_cons] at hlast
    · exact issueAll_cons_of_error (h.issue_none hnone) _

end

-- # Whole strings

theorem fits_of_wholeDecode {str bytes : List Byte} {cap : Capacity} (h : wholeDecode str = .ok bytes)
    (hfits : cap.fits bytes.length = true) : cap.fits (5 * (trimPadding str).length / 8) = true :=
  decodedLength str bytes h ▸ hfits

/-- A string with a whole-string decode is accepted symbol by symbol; the call then holds the string's bits. -/
theorem issueAll_symbols_of_ok {str bytes : List Byte} {s₀ s : State} (h : Decoding s₀ [] false s)
    (hroom : s₀.outMax.fits (5 * (trimPadding str).length / 8) = true) (hstr : wholeDecode str = .ok bytes) :
    ∃ bits pad t, issueAll (symbolCommands str) s = .ok (List.replicate str.length 0, t) ∧
      Decoding s₀ bits pad t ∧ bytesOfBits bits = bytes := by
  obtain ⟨vs, hvs, hbytes⟩ := wholeDecode_eq_ok hstr
  obtain ⟨k, hk⟩ := exists_eq_trimPadding_append str
  obtain ⟨t, ht, hdec⟩ := h.issueAll_values hvs (by simpa using hroom)
  obtain ⟨pad, u, hu, hdone⟩ := hdec.issueAll_padding k
  refine ⟨_, pad, u, ?_, hdone, hbytes⟩
  have hall := issueAll_append_ok ht hu
  rwa [← symbolCommands_append, ← hk, List.replicate_append_replicate,
    show (trimPadding str).length + k = str.length by simpa using (congrArg List.length hk).symm] at hall

/-- A string without a whole-string decode fails at one of its symbols with the character reported there. -/
theorem issueAll_symbols_of_error {str : List Byte} {c : Byte} {s₀ s : State} (h : Decoding s₀ [] false s)
    (hroom : s₀.outMax.fits (5 * (trimPadding str).length / 8) = true) (hstr : wholeDecode str = .error c) :
    issueAll (symbolCommands str) s = .error (.invalidCharacter c.toNat) := by
  obtain ⟨k, hk⟩ := exists_eq_trimPadding_append str
  have hfail := h.issueAll_offending (wholeDecode_eq_error hstr) (trimPadding_getLast?_ne str) (by simpa using hroom)
  rw [hk, symbolCommands_append]
  exact issueAll_append_error hfail _

/-- Settles O47: START opens a call that holds no bits, the symbols move its bit string on, END leaves its bytes. -/
theorem streamedDecodeIsWholeDecode : Obligations.StreamedDecodeIsWholeDecode := by
  intro str s hinv hroom
  obtain ⟨s₁, hstart, hopen⟩ := issue_start hinv
  rw [decodeCommands_eq]
  cases hstr : wholeDecode str with
  | error c =>
    exact issueAll_cons_error hstart (issueAll_append_error (issueAll_symbols_of_error hopen hroom hstr) _)
  | ok bytes =>
    obtain ⟨bits, pad, s₂, hsyms, hdec, rfl⟩ := issueAll_symbols_of_ok hopen hroom hstr
    obtain ⟨t, hend, hdone, hbytes, htrn, hdig⟩ := hdec.issue_end
    have hocnt : t.b32.ocnt = (bytesOfBits bits).length := by rw [← hbytes, length_decodedBytes]
    refine ⟨t, ?_, hdone, hocnt, fun j hj => ?_, htrn, hdig⟩
    · exact issueAll_cons_ok hstart (issueAll_append_ok hsyms (issueAll_cons_ok hend rfl))
    · rw [← hbytes, decodedBytes_getD (hocnt ▸ hj)]

-- # The round trip

/-- Five bits make the value that writes them. -/
theorem valueBits_ofNat_numberOfBits : ∀ b4 b3 b2 b1 b0 : Bool,
    valueBits (BitVec.ofNat 5 (numberOfBits [b4, b3, b2, b1, b0])) = [b4, b3, b2, b1, b0] := by decide

/-- Cutting a bit string into values adds at most four zero bits (R79). -/
theorem flatMap_valueBits_valuesOfBits (bits : List Bool) :
    ∃ zeros : List Bool, zeros.length < 5 ∧ (valuesOfBits bits).flatMap valueBits = bits ++ zeros := by
  induction bits using valuesOfBits.induct with
  | case1 => exact ⟨[], by decide, rfl⟩
  | case2 => exact ⟨[false, false, false, false], by decide, by simp [valuesOfBits, valueBits_ofNat_numberOfBits]⟩
  | case3 => exact ⟨[false, false, false], by decide, by simp [valuesOfBits, valueBits_ofNat_numberOfBits]⟩
  | case4 => exact ⟨[false, false], by decide, by simp [valuesOfBits, valueBits_ofNat_numberOfBits]⟩
  | case5 => exact ⟨[false], by decide, by simp [valuesOfBits, valueBits_ofNat_numberOfBits]⟩
  | case6 b4 b3 b2 b1 b0 rest ih =>
    obtain ⟨zeros, hlen, ih⟩ := ih
    exact ⟨zeros, hlen, by simp [valuesOfBits, valueBits_ofNat_numberOfBits, ih]⟩

/-- D0's decode inverts base32 encoding, in either case and with any padding (R79). -/
theorem wholeDecode_of_encodedValues {bytes str : List Byte}
    (hstr : str.map lookup = (encodedValues bytes).map SymClass.value) (k : Nat) :
    wholeDecode (str ++ List.replicate k padCode) = .ok bytes := by
  have hnopad : padCode ∉ str := fun hmem => by
    have hclass : lookup padCode ∈ (encodedValues bytes).map SymClass.value := hstr ▸ List.mem_map_of_mem hmem
    obtain ⟨v, -, hv⟩ := List.mem_map.1 hclass
    cases hv
  obtain ⟨zeros, hlen, hbits⟩ := flatMap_valueBits_valuesOfBits (bytes.flatMap byteBits)
  rw [wholeDecode, trimPadding_append_replicate hnopad, symbolValues_eq_ok_iff.2 hstr]
  change Except.ok (bytesOfBits ((valuesOfBits _).flatMap valueBits)) = _
  rw [hbits, bytesOfBits_flatMap_byteBits bytes (by omega)]

/-- Settles O48: the streamed decode is the whole-string decode, which inverts the encoding. -/
theorem decodingInvertsEncoding : Obligations.DecodingInvertsEncoding := by
  intro bytes str k s hinv hfits hstr
  have hdecode := wholeDecode_of_encodedValues hstr k
  have hstream := streamedDecodeIsWholeDecode _ s hinv (fits_of_wholeDecode hdecode hfits)
  rw [hdecode] at hstream
  obtain ⟨t, hissue, hdone, hocnt, hbytes, -⟩ := hstream
  exact ⟨_, t, hissue, hdone, hocnt, hbytes⟩

end Sys2Proof.Machine
end

section
/-! The digest load and the dynamic truncation (41_truncate.md R80 to R83): what the TRN commands do in each case, and
that the offset and the word of a truncation are fixed by the digest bytes. -/

namespace Sys2Proof.Machine

variable {s : State}

/-- Settles O25: what CLR does depends on no register, and it writes no byte file. -/
theorem clrEmptiesTheDigest : Obligations.ClrEmptiesTheDigest :=
  ⟨isWordOf_of_decode rfl, fun _ =>
    ⟨_, rfl, rfl, rfl, rfl, rfl, rfl, rfl, rfl, fun _ => rfl, fun _ => rfl, rfl, rfl, rfl⟩⟩

/-- DGN holds the next count whole: it has 5 bits and the digest 20 bytes (41_truncate.md R81). -/
theorem pushedState_dgn_toNat (b : Byte) (h : s.trn.dgn.toNat < 20) :
    (pushedState b s).trn.dgn.toNat = s.trn.dgn.toNat + 1 := by
  simp [pushedState]; omega

theorem byteAt_pushedState_same (b : Byte) (h : Memory.wf s.trn.dg = true) :
    byteAt .dg s.trn.dgn.toNat (pushedState b s) = b :=
  Memory.read_write_same _ _ h

theorem byteAt_pushedState_other {j : Nat} (b : Byte) (h : j ≠ s.trn.dgn.toNat) :
    byteAt .dg j (pushedState b s) = byteAt .dg j s :=
  Memory.read_write_other h _ _

/-- Settles O26: the state after is `pushedState` while the digest is open; a 21st byte is refused. -/
theorem pushLoadsTheNextDigestByte : Obligations.PushLoadsTheNextDigestByte := by
  refine ⟨fun b => isWordOf_of_decode ?_, fun b s => ?_⟩
  · exact (congrArg decode (ofNat_opArg 0x21 b)).trans (decode_encode (i := .trnPush b) rfl)
  · rcases execTrnPush_cases b s with ⟨hfull, he⟩ | ⟨hopen, he⟩
    · exact ⟨fun h => absurd h hfull.not_gt, fun _ => he⟩
    · refine ⟨fun _ => ?_, fun h => absurd hopen h.not_gt⟩
      exact ⟨respond .ok 0 (pushedState b s), he, byteAt_pushedState_same b, fun _ => byteAt_pushedState_other b,
        pushedState_dgn_toNat b hopen, rfl, rfl, rfl, rfl, rfl, rfl, rfl, rfl⟩

/-- Settles O27: the offset and the word are the ones of `execTrnGo_cases`, and nothing but them, BINV and the code's
two registers is written. -/
theorem goTruncatesTheDigest : Obligations.GoTruncatesTheDigest := by
  refine ⟨isWordOf_of_decode rfl, fun s => ?_⟩
  rcases execTrnGo_cases s with ⟨hshort, he⟩ | ⟨hloaded, o, b, ⟨hoff, hbin⟩, he⟩
  · exact ⟨fun h => absurd h hshort, fun _ => he⟩
  · refine ⟨fun _ => ?_, fun h => absurd hloaded h⟩
    exact ⟨respond .ok b (truncatedState o b s), he, hoff, hbin, rfl, rfl, rfl, rfl, rfl, fun _ => rfl, fun _ => rfl,
      rfl, rfl, rfl⟩

/-- TRN.GO answers OK only with a truncation of the digest, its word as the response. -/
theorem isTruncation_of_exec_trnGo_ok {t : State} {d : Data} (he : exec .trnGo s = .next t)
    (hr : t.resp = some { fc := .ok, data := d }) : IsTruncation t.trn.off t.trn.bin s ∧ d = t.trn.bin := by
  change execTrnGo s = .next t at he
  rcases execTrnGo_cases s with ⟨-, hc⟩ | ⟨-, o, b, htrunc, hc⟩ <;> rw [hc] at he <;> cases he
  · cases hr
  · cases hr
    exact ⟨htrunc, rfl⟩

/-- The offset and the word of a truncation are fixed by the 20 digest bytes: at most byte 15 + 3 is read (R83). -/
theorem IsTruncation.unique {s' : State} {o o' : BitVec 4} {b b' : BitVec 32} (h : IsTruncation o b s)
    (h' : IsTruncation o' b' s') (hdg : ∀ k, k < 20 → byteAt .dg k s = byteAt .dg k s') : o = o' ∧ b = b' := by
  obtain ⟨hoff, hbin⟩ := h
  obtain ⟨hoff', hbin'⟩ := h'
  rw [hdg 19 (by omega)] at hoff
  obtain rfl : o = o' := BitVec.eq_of_toNat_eq (hoff.trans hoff'.symm)
  have ho := o.isLt
  rw [hdg _ (by omega), hdg _ (by omega), hdg _ (by omega), hdg _ (by omega)] at hbin
  exact ⟨rfl, BitVec.eq_of_toNat_eq (hbin.trans hbin'.symm)⟩

/-- Settles O28: OFF has 4 bits, BIN a masked top bit, and both are unique for the digest. -/
theorem truncationDependsOnTheDigestAlone : Obligations.TruncationDependsOnTheDigestAlone := by
  constructor
  · intro s t d he hr
    obtain ⟨htrunc, -⟩ := isTruncation_of_exec_trnGo_ok he hr
    exact ⟨Nat.le_of_lt_succ t.trn.off.isLt, Nat.le_of_lt_succ htrunc.lt_two_pow⟩
  · intro s s' t t' d d' hdg he hr he' hr'
    obtain ⟨htrunc, rfl⟩ := isTruncation_of_exec_trnGo_ok he hr
    obtain ⟨htrunc', rfl⟩ := isTruncation_of_exec_trnGo_ok he' hr'
    obtain ⟨hoff, hbin⟩ := htrunc.unique htrunc' hdg
    exact ⟨hbin, hoff, hbin⟩

end Sys2Proof.Machine
end

section
/-! The numeric code (42_digits.md R90 to R93): what the DIG commands do in each case, and that the code of a state
that meets the invariant spells the truncation of the digest now in `DG`. -/

namespace Sys2Proof.Machine

variable {s : State}

-- # The commands

theorem byteAt_formattedState_digit {m : Memory} (hm : IsFormatted m s) (hwf : Memory.wf s.dig.code = true) {k : Nat}
    (hk : k < 6) : (byteAt .code (5 - k) (formattedState m s)).toNat =
      0x30 + s.trn.bin.toNat % 1000000 / 10 ^ k % 10 := by
  obtain ⟨hspell, -, -⟩ := hm
  exact (congrArg BitVec.toNat ((hspell hwf).2 k hk)).trans (digitChar_toNat _ k)

theorem byteAt_formattedState_other {m : Memory} (hm : IsFormatted m s) {j : Nat} (hj : 6 ≤ j) :
    byteAt .code j (formattedState m s) = byteAt .code j s := by
  obtain ⟨-, hother, -⟩ := hm
  exact hother j hj

/-- Settles O29: with a truncated word the state after is `formattedState` of the six writes. -/
theorem goFormatsSixDigits : Obligations.GoFormatsSixDigits := by
  refine ⟨isWordOf_of_decode rfl, fun s => ?_⟩
  rcases execDigGo_cases s with ⟨hbinv, he⟩ | ⟨hbinv, m, hm, he⟩ <;> rw [hbinv]
  · exact ⟨nofun, fun _ => he⟩
  · refine ⟨fun _ => ?_, nofun⟩
    exact ⟨respond .ok (BitVec.ofNat 32 (numericCode s.trn.bin)) (formattedState m s), he, formattedState_num_toNat m s,
      fun hwf _ => byteAt_formattedState_digit hm hwf, fun _ => byteAt_formattedState_other hm, rfl, rfl, rfl, rfl, rfl,
      rfl⟩

/-- Settles O30, by the cases of RDC. -/
theorem rdcReadsTheCode : Obligations.RdcReadsTheCode := by
  refine ⟨fun i => isWordOf_of_decode ?_, fun i s => ?_⟩
  · exact (congrArg decode (ofNat_opArg 0x31 i)).trans (decode_encode (i := .digRdc i) rfl)
  · change (_ → execDigRdc i s = _) ∧ (_ → _ → execDigRdc i s = _) ∧ (_ → _ → execDigRdc i s = _)
    rcases execDigRdc_cases i s with ⟨hdigv, he⟩ | ⟨hdigv, hgt, he⟩ | ⟨hdigv, hle, he⟩ <;> rw [hdigv]
    · exact ⟨fun _ => he, nofun, nofun⟩
    · exact ⟨nofun, fun _ h => absurd h hgt.not_ge, fun _ _ => he⟩
    · exact ⟨nofun, fun _ _ => he, fun _ h => absurd hle (Nat.not_le_of_lt h)⟩

-- # The code and the digest

/-- A valid code has the digit of weight `10^(5-k)` at index `k` (R90). -/
theorem Inv.codeChar_toNat (h : Inv s) (hdigv : s.dig.digv = true) {k : Nat} (hk : k < 6) :
    (byteAt .code k s).toNat = 0x30 + s.dig.num.toNat / 10 ^ (5 - k) % 10 := by
  have hchar := h.codeOfNum hdigv (5 - k) (by omega)
  rwa [Nat.sub_sub_self (by omega)] at hchar

/-- A number below 10^6 is the sum of its six decimal digits, each times its weight. -/
theorem sum_six_decimal_digits {n : Nat} (h : n ≤ 999999) :
    ((List.range 6).map fun k => n / 10 ^ (5 - k) % 10 * 10 ^ (5 - k)).sum = n := by
  simp [List.range_succ]; omega

/-- `digestNumber` of the 20 bytes in `DG` is their truncation: at most byte 15 + 3 is read (41_truncate.md R82). -/
theorem IsTruncation.digestNumber_eq {o : BitVec 4} {b : BitVec 32} (h : IsTruncation o b s) :
    digestNumber ((List.range 20).map fun k => byteAt .dg k s) = b.toNat := by
  obtain ⟨hoff, hbin⟩ := h
  have ho := o.isLt
  have hbyte : ∀ k, k < 20 → ((List.range 20).map fun k => byteAt .dg k s).getD k 0 = byteAt .dg k s := fun k hk => by
    simp [hk]
  simp only [digestNumber]
  rw [hbyte 19 (by omega), ← hoff, hbyte _ (by omega), hbyte _ (by omega), hbyte _ (by omega), hbyte _ (by omega),
    hbin]

/-- Settles O31: the invariant ties the characters to NUM, NUM to BIN, and BIN to the digest. -/
theorem validCodeSpellsTheDigestNow : Obligations.ValidCodeSpellsTheDigestNow := by
  intro s h hdigv
  have hnum := h.numOfBin hdigv
  have htrunc : IsTruncation s.trn.off s.trn.bin s := h.binOfDigest (h.digvValid hdigv)
  refine ⟨fun k hk => ?_, ?_, hnum, htrunc.digestNumber_eq.symm ▸ hnum⟩
  · rw [h.codeChar_toNat hdigv hk]; omega
  · refine (congrArg List.sum (List.map_congr_left fun k hk => ?_)).trans (sum_six_decimal_digits h.numRange)
    rw [h.codeChar_toNat hdigv (List.mem_range.mp hk), Nat.add_sub_cancel_left]

end Sys2Proof.Machine
end

section
/-! The register map (10_state.md R24, 43_system.md R97): every status word as the number its fields make, and from them
the operand of RDREG as the value the map gives. -/

namespace Sys2Proof.Machine

/-- Two fields side by side make the low one plus the high one times the weight of its lowest bit. -/
theorem toNat_append_fields {m n : Nat} (hi : BitVec m) (lo : BitVec n) :
    (hi ++ lo).toNat = lo.toNat + 2 ^ n * hi.toNat := by
  rw [BitVec.toNat_append, Nat.shiftLeft_eq, Nat.mul_comm, ← Nat.two_pow_add_eq_or_of_lt lo.isLt, Nat.add_comm]

@[simp] theorem b32Stat_toNat (s : State) :
    (b32Stat s).toNat = s.b32.st.code.toNat + 2 ^ 2 * s.b32.pad.toNat := by
  rw [b32Stat, BitVec.toNat_setWidth_of_le (by decide), toNat_append_fields, BitVec.toNat_ofBool]

@[simp] theorem b32Err_toNat (s : State) :
    (b32Err s).toNat = s.b32.errchar.toNat + 2 ^ 8 * s.b32.errcode.toNat := by
  rw [b32Err, BitVec.toNat_setWidth_of_le (by decide), toNat_append_fields]

@[simp] theorem trnStat_toNat (s : State) : (trnStat s).toNat = s.trn.dgn.toNat + 2 ^ 8 * s.trn.binv.toNat := by
  rw [trnStat, BitVec.toNat_setWidth_of_le (by decide), toNat_append_fields, toNat_append_fields,
    BitVec.toNat_ofBool, BitVec.toNat_ofNat]
  omega

@[simp] theorem digStat_toNat (s : State) : (digStat s).toNat = s.dig.digv.toNat := by
  rw [digStat, BitVec.toNat_setWidth_of_le (by decide), BitVec.toNat_ofBool]

/-- A counter is read as its low 16 bits (10_state.md R24, D9). -/
theorem toNat_counterWord (k : Nat) : ((BitVec.ofNat 16 k).setWidth 32).toNat = k % 2 ^ 16 := by
  rw [BitVec.toNat_setWidth_of_le (by decide), BitVec.toNat_ofNat]

theorem registerValue_b32Stat (s : State) : registerValue 0x00 s = some (b32Stat s).toNat := by
  rw [b32Stat_toNat, registerValue]
  cases s.b32.st <;> rfl

/-- The register map gives the number the operand of RDREG reads, and none where RDREG has no operand. -/
theorem registerValue_eq_map_toNat (n : Byte) (s : State) :
    registerValue n.toNat s = (registerOperand n s).map BitVec.toNat := by
  have field {w : Nat} (hw : w ≤ 32) (x : BitVec w) : some x.toNat = some (x.setWidth 32).toNat :=
    congrArg some (BitVec.toNat_setWidth_of_le hw).symm
  rw [registerOperand]
  generalize n.toNat = k
  match k with
  | 0x00 => exact registerValue_b32Stat s
  | 0x01 => exact field (by decide) s.b32.cur
  | 0x02 => exact field (by decide) s.b32.brem
  | 0x03 => exact congrArg some (toNat_counterWord s.b32.scnt).symm
  | 0x04 => exact congrArg some (toNat_counterWord s.b32.ocnt).symm
  | 0x05 => exact congrArg some (b32Err_toNat s).symm
  | 0x08 => exact congrArg some (trnStat_toNat s).symm
  | 0x09 => exact field (by decide) s.trn.off
  | 0x0A => rfl
  | 0x10 => exact congrArg some (digStat_toNat s).symm
  | 0x11 => exact field (by decide) s.dig.num
  | 0x06 | 0x07 | 0x0B | 0x0C | 0x0D | 0x0E | 0x0F | _ + 0x12 => rfl

/-- Settles O14: the number of the word is `encode`'s, and RDREG answers its operand in the two cases of the map. -/
theorem rdregReadsTheRegisterMap : Obligations.RdregReadsTheRegisterMap := by
  refine ⟨fun n => isWordOf_of_decode ?_, fun n s => ?_⟩
  · exact (congrArg decode (ofNat_opArg 0x01 n)).trans (decode_encode (i := .rdreg n) rfl)
  · change execRdreg n s = _
    rw [registerValue_eq_map_toNat, execRdreg]
    cases registerOperand n s with
    | none => rfl
    | some d =>
      have hd : d = BitVec.ofNat 32 d.toNat := ((BitVec.ofNat_toNat ..).trans (BitVec.setWidth_eq d)).symm
      exact congrArg (fun v => Host.Outcome.next (answered s .ok v)) hd

end Sys2Proof.Machine
end

section
/-! The host's time (44_host_contract.md sections 2 and 4): the rounded seconds of an instant, its time step, its moving
factor and its expiry. The expiry, like the time step, depends on the rounded seconds by their quotient by 30 alone. -/

namespace Sys2Proof.Machine

open Sys2Proof.Config

section
variable {tie : RoundTie} {now f : Rat} {n : Int}

-- # Rounding

theorem floor_intCast_add (hf0 : 0 ≤ f) (hf1 : f < 1) : ((n : Rat) + f).floor = n :=
  le_antisymm (Int.lt_add_one_iff.1 (Rat.floor_lt_iff.2 (by push_cast; linarith))) (Rat.le_floor_iff.2 (by linarith))

/-- `unixNow_cases` for an instant given as its whole seconds and their fraction. -/
theorem unixNow_intCast_add_cases (tie : RoundTie) (hf0 : 0 ≤ f) (hf1 : f < 1) :
    (unixNow tie (n + f) = n ∧ f ≤ 1 / 2) ∨ (unixNow tie (n + f) = n + 1 ∧ 1 / 2 ≤ f) := by
  simpa [floor_intCast_add hf0 hf1] using unixNow_cases tie (n + f)

theorem unixNow_below_tie (hf0 : 0 ≤ f) (hf : f < 1 / 2) : unixNow tie (n + f) = n := by
  rcases unixNow_intCast_add_cases (n := n) tie hf0 (by linarith) with ⟨hdown, -⟩ | ⟨-, hge⟩
  · exact hdown
  · exact absurd hf hge.not_gt

theorem unixNow_above_tie (hf : 1 / 2 < f) (hf1 : f < 1) : unixNow tie (n + f) = n + 1 := by
  rcases unixNow_intCast_add_cases (n := n) tie (by linarith) hf1 with ⟨-, hle⟩ | ⟨hup, -⟩
  · exact absurd hf hle.not_gt
  · exact hup

theorem unixNow_halfUp_tie (n : Int) : unixNow .halfUp (n + 1 / 2) = n + 1 := by
  simp only [unixNow, floor_intCast_add (n := n) (f := 1 / 2) (by norm_num) (by norm_num), add_sub_cancel_left,
    lt_irrefl, if_false]

theorem unixNow_halfEven_tie (n : Int) : unixNow .halfEven (n + 1 / 2) = n + n % 2 := by
  simp only [unixNow, floor_intCast_add (n := n) (f := 1 / 2) (by norm_num) (by norm_num), add_sub_cancel_left,
    lt_irrefl, if_false]
  split <;> omega

/-- From the tie on, an odd second is rounded up by either reading. -/
theorem unixNow_of_odd (hn : n % 2 = 1) (hf : 1 / 2 ≤ f) (hf1 : f < 1) : unixNow tie (n + f) = n + 1 := by
  rcases hf.lt_or_eq with hlt | rfl
  · exact unixNow_above_tie hlt hf1
  · cases tie with
    | halfUp => exact unixNow_halfUp_tie n
    | halfEven => rw [unixNow_halfEven_tie, hn]

/-- The two readings of a tie differ by an odd second at most, and a step begins at an even one (D21). -/
theorem unixNow_ediv_30_tie_irrelevant (now : Rat) : unixNow .halfUp now / 30 = unixNow .halfEven now / 30 := by
  by_cases htie : now - now.floor = 1 / 2
  · obtain ⟨n, rfl⟩ : ∃ n : Int, now = n + 1 / 2 := ⟨now.floor, by linarith⟩
    rw [unixNow_halfUp_tie, unixNow_halfEven_tie]
    omega
  · rcases unixNow_cases .halfUp now with ⟨hup, hle⟩ | ⟨hup, hge⟩ <;>
      rcases unixNow_cases .halfEven now with ⟨heven, hle'⟩ | ⟨heven, hge'⟩
    · rw [hup, heven]
    · exact absurd (le_antisymm hle hge') htie
    · exact absurd (le_antisymm hle' hge) htie
    · rw [hup, heven]

/-- The rounded seconds are not negative from half a second before 1970 on, a tie at `-1/2` being rounded to 0 (D22). -/
theorem unixNow_nonneg_iff (tie : RoundTie) (now : Rat) : 0 ≤ unixNow tie now ↔ -1 / 2 ≤ now := by
  have hfloor := Rat.floor_le now
  constructor
  · intro h
    rcases unixNow_cases tie now with ⟨hdown, -⟩ | ⟨hup, hge⟩
    · have : (0 : Rat) ≤ now.floor := by exact_mod_cast hdown ▸ h
      linarith
    · have : (0 : Rat) ≤ now.floor + 1 := by exact_mod_cast hup ▸ h
      linarith
  · intro h
    have hlow : -1 ≤ now.floor := Rat.le_floor_iff.2 (by push_cast; linarith)
    rcases hlow.eq_or_lt with hlast | hnonneg
    · rw [show now = (-1 : Int) + (now + 1) by push_cast; ring]
      have hlt := Rat.lt_floor_add_one now
      rw [← hlast] at hlt
      rw [unixNow_of_odd (by decide) (by linarith) (by push_cast at hlt; linarith)]
      decide
    · rcases unixNow_cases tie now with ⟨hround, -⟩ | ⟨hround, -⟩ <;> omega

-- # The time step and the expiry

theorem timeStep_eq (tie : RoundTie) (now : Rat) : timeStep tie now = (unixNow tie now / 30).toNat := by
  simp only [timeStep, stepSeconds]
  omega

theorem timeStep_of_nonneg (h : 0 ≤ unixNow tie now) : (timeStep tie now : Int) = unixNow tie now / 30 := by
  rw [timeStep_eq]
  omega

/-- D0's conditional steps back one second exactly where the instant was rounded down, so that the second before the
next step begins is the last whole one (R109, R110). -/
theorem expiryUtc_eq (tie : RoundTie) (now : Rat) :
    expiryUtc tie now = 30 * (((unixNow tie now / 30 : Int) : Rat) + 1) - 1 / 1000 := by
  have hcandidate : (candidateExpiry tie now).floor = now.floor + (30 - unixNow tie now % 30) :=
    Rat.floor_add_intCast
  have hstepBack : (candidateExpiry tie now - 1).floor = (candidateExpiry tie now).floor - 1 :=
    Int.floor_sub_one (candidateExpiry tie now)
  have hsecond : (if secondOfMinute (candidateExpiry tie now) % 30 = 0 then candidateExpiry tie now - 1
      else candidateExpiry tie now).floor = 30 * (unixNow tie now / 30) + 29 := by
    rw [secondOfMinute, apply_ite Rat.floor, hstepBack, hcandidate]
    rcases unixNow_cases tie now with ⟨hround, -⟩ | ⟨hround, -⟩ <;> rw [hround] <;> split <;> omega
  simp only [expiryUtc]
  rw [hsecond]
  push_cast
  ring

theorem expiryUtc_of_nonneg (h : 0 ≤ unixNow tie now) :
    expiryUtc tie now = 30 * ((timeStep tie now : Rat) + 1) - 1 / 1000 := by
  rw [expiryUtc_eq, ← timeStep_of_nonneg h]
  rfl

end

-- # The statements about the host's time

/-- Settles O49: an instant is its whole seconds and their fraction, and the fraction decides. -/
theorem unixNowRoundsToNearest : Obligations.UnixNowRoundsToNearest :=
  ⟨fun _ _ _ hf0 hf1 => ⟨unixNow_below_tie hf0, fun hf => unixNow_above_tie hf hf1⟩,
    fun n => ⟨unixNow_halfUp_tie n, unixNow_halfEven_tie n⟩⟩

/-- Settles O50: time step and expiry depend on the quotient by 30, which the two readings share. -/
theorem roundTieDoesNotMatter : Obligations.RoundTieDoesNotMatter := by
  intro now _
  simp only [timeStep_eq, expiryUtc_eq, unixNow_ediv_30_tie_irrelevant, and_self]

/-- Settles O52: D0's conditional is computed in `expiryUtc_eq`, whose quotient is the time step. -/
theorem expiryClosedForm : Obligations.ExpiryClosedForm := fun _ _ => expiryUtc_of_nonneg

/-- Settles O53: the rounded seconds are at most 29 past the beginning of their step, and the second before a step begins
is odd. -/
theorem expiryBounds : Obligations.ExpiryBounds := by
  intro tie n f hf0 hf1 _
  rw [expiryUtc_eq]
  constructor
  · intro hf
    rw [unixNow_below_tie hf0 hf]
    have hlow : ((30 * (n / 30) : Int) : Rat) ≤ n := by exact_mod_cast (show 30 * (n / 30) ≤ n by omega)
    have hhigh : (n : Rat) ≤ (30 * (n / 30) + 29 : Int) := by exact_mod_cast (show n ≤ 30 * (n / 30) + 29 by omega)
    push_cast at hlow hhigh
    constructor <;> linarith
  · intro hf hfirst
    rw [unixNow_of_odd (by omega) hf hf1]
    have hexact : ((30 * ((n + 1) / 30) : Int) : Rat) = n + 1 := by
      exact_mod_cast (show 30 * ((n + 1) / 30) = n + 1 by omega)
    push_cast at hexact
    linarith

theorem isExpired_eq_true_iff {r : TotpResult} {now : Rat} : isExpired r now = true ↔ r.expiry < now :=
  decide_eq_true_iff

theorem isExpired_eq_false_iff {r : TotpResult} {now : Rat} : isExpired r now = false ↔ now ≤ r.expiry :=
  decide_eq_false_iff_not.trans not_lt

/-- Settles O54: a millisecond is on the strict side of the comparison or on the other. -/
theorem expiryIsStrict : Obligations.ExpiryIsStrict := fun _ _ =>
  ⟨isExpired_eq_true_iff, isExpired_eq_false_iff.2 le_rfl, isExpired_eq_true_iff.2 (by linarith),
    isExpired_eq_false_iff.2 (by linarith)⟩

-- # The moving factor

/-- The low bytes of a number, most significant first, read as a number after the digits already read. -/
theorem foldl_bigEndian (x : Nat) (k : Nat) (acc : Nat) :
    ((List.range k).map fun i => BitVec.ofNat 8 (x / 256 ^ (k - 1 - i))).foldl (fun n b => 256 * n + b.toNat) acc =
      acc * 256 ^ k + x % 256 ^ k := by
  induction k generalizing acc with
  | zero => simp [Nat.mod_one]
  | succ k ih =>
    have htail : ∀ i, k + 1 - 1 - Nat.succ i = k - 1 - i := fun i => by omega
    rw [List.range_succ_eq_map, List.map_cons, List.map_map, List.foldl_cons, Nat.mod_pow_succ]
    simp only [Function.comp_def, htail]
    rw [ih, BitVec.toNat_ofNat, Nat.add_sub_cancel, Nat.sub_zero]
    ring

/-- Settles O51: eight bytes hold a number below 2^64 whole. -/
theorem movingFactorIsBigEndian : Obligations.MovingFactorIsBigEndian := by
  intro step hstep
  refine ⟨by simp [movingFactor, counterBytes], ?_⟩
  rw [movingFactor, counterBytes, foldl_bigEndian step 8 0, Nat.zero_mul, Nat.zero_add, Nat.mod_eq_of_lt (by omega)]

end Sys2Proof.Machine
end

section
/-! The pseudo-instructions of the host (30_encoding.md R58) from every state that meets the invariant: a decoded secret
is read out byte by byte, a digest of 20 bytes is loaded, truncated and read as its six digits (44_host_contract.md
R102, R107). -/

namespace Sys2Proof.Machine

open Sys2Proof.Config

section
variable {s t : State} {w : CommandWord} {d : Data}

-- # An answered command

theorem issue_respondOk {i : Instr} (hd : decode w = .ok i) (he : exec i { s with inputs := [] } = respondOk d t) :
    issue w s = .ok (d, respond .ok d t) := issue_ok hd he rfl

/-- A command the host goes on from was a step of the machine. -/
theorem step_of_issue_ok (h : issue w s = .ok (d, t)) : step { s with inputs := [.command w] } = .next t := by
  unfold issue at h
  split at h
  · split at h
    · split at h <;> cases h
      assumption
    · cases h
  · cases h
  · cases h

theorem issue_keeps_inv (h : Inv s) (hi : issue w s = .ok (d, t)) : Inv t :=
  stepKeepsInvariant _ _ (h.ports _ s.resp) (step_of_issue_ok hi)

theorem issueAll_keeps_inv {ws : List CommandWord} {ds : List Data} (h : Inv s) (hi : issueAll ws s = .ok (ds, t)) :
    Inv t := by
  induction ws generalizing s ds with
  | nil => cases hi; exact h
  | cons w ws ih =>
    simp only [issueAll] at hi
    split at hi
    · cases hi
    · rename_i hw
      split at hi
      · cases hi
      · rename_i hws
        cases hi
        exact ih (issue_keeps_inv h hw) hws

-- # Commands that read

/-- Whatever stands on the ports, `w` is answered `OK(d)` and changes nothing but them. -/
def ReadsAs (w : CommandWord) (d : Data) (s : State) : Prop :=
  ∀ ins r, issue w { s with inputs := ins, resp := r } = .ok (d, answered { s with inputs := [] } .ok d)

/-- Reads in a row give what each of them gives alone. -/
theorem issueAll_reads {word : Nat → CommandWord} {value : Nat → Data} {indices : List Nat}
    (h : ∀ i ∈ indices, ReadsAs (word i) (value i) s) (ins : List Input) (r : Option Response) :
    ∃ t, issueAll (indices.map word) { s with inputs := ins, resp := r } = .ok (indices.map value, t) := by
  induction indices generalizing ins r with
  | nil => exact ⟨_, rfl⟩
  | cons i indices ih =>
    obtain ⟨hi, hrest⟩ := List.forall_mem_cons.1 h
    obtain ⟨t, ht⟩ := ih hrest [] (some { fc := .ok, data := value i })
    exact ⟨t, issueAll_cons_ok (hi ins r) ht⟩

theorem toNat_ofNat_index {i : Nat} (hi : i < 256) : (BitVec.ofNat 8 i).toNat = i :=
  Nat.mod_eq_of_lt hi

theorem readsAs_rdb (h : Inv s) (hdone : s.b32.st = .done) {i : Nat} (hi : i < s.b32.ocnt) (hindex : i < 256) :
    ReadsAs (commandWord 0x13 (BitVec.ofNat 8 i)) ((byteAt .out i s).setWidth 32) s := by
  intro ins r
  obtain ⟨-, hrdb⟩ := rdbReadsTheSecret
  obtain ⟨-, -, hread⟩ := hrdb (BitVec.ofNat 8 i) { s with inputs := [], resp := r }
  rw [toNat_ofNat_index hindex] at hread
  exact issue_ok (decode_encode (i := .b32Rdb _) rfl) (hread hdone hi h.ocntFits) rfl

theorem readsAs_rdc (hdigv : s.dig.digv = true) {i : Nat} (hi : i ≤ 5) :
    ReadsAs (commandWord 0x31 (BitVec.ofNat 8 i)) ((byteAt .code i s).setWidth 32) s := by
  intro ins r
  obtain ⟨-, hrdc⟩ := rdcReadsTheCode
  obtain ⟨-, hread, -⟩ := hrdc (BitVec.ofNat 8 i) { s with inputs := [], resp := r }
  rw [toNat_ofNat_index (by omega)] at hread
  exact issue_ok (decode_encode (i := .digRdc _) rfl) (hread hdigv hi) rfl

/-- The response data of a byte holds the byte whole. -/
theorem map_setWidth_bytes (bytes : List Byte) :
    (bytes.map (BitVec.setWidth 32)).map (fun d => d.setWidth 8) = bytes := by
  simp [Function.comp_def]

-- # The secret

theorem decodeSecret_of_error {str : List Byte} {c : Byte} (h : Inv s)
    (hroom : s.outMax.fits (5 * (trimPadding str).length / 8) = true) (hstr : wholeDecode str = .error c) :
    decodeSecret str s = .error (.invalidCharacter c.toNat) := by
  have hstream := streamedDecodeIsWholeDecode str s h hroom
  rw [hstr] at hstream
  simp [decodeSecret, hstream]

/-- A secret that decodes within `OUT_MAX` and within the 8-bit index of RDB is read out whole. -/
theorem decodeSecret_of_ok {str key : List Byte} (h : Inv s) (hfits : s.outMax.fits key.length = true)
    (hindex : key.length ≤ 256) (hstr : wholeDecode str = .ok key) :
    ∃ t, decodeSecret str s = .ok (key, t) ∧ Inv t := by
  have hstream := streamedDecodeIsWholeDecode str s h (fits_of_wholeDecode hstr hfits)
  rw [hstr] at hstream
  obtain ⟨t, hdecode, hdone, hocnt, hbytes, -⟩ := hstream
  have ht : Inv t := issueAll_keeps_inv h hdecode
  obtain ⟨u, hread⟩ := issueAll_reads (s := t) (indices := List.range key.length) (fun i hi => by
    rw [List.mem_range] at hi
    exact readsAs_rdb ht hdone (hocnt ▸ hi) (by omega)) t.inputs t.resp
  have hkey : (List.range key.length).map (fun i => (byteAt .out i t).setWidth 32) = key.map (BitVec.setWidth 32) :=
    List.ext_getElem (by simp) fun i hi _ => by
      have hi : i < key.length := by simpa using hi
      simp [hbytes i hi, hi]
  have hlen : (BitVec.ofNat 32 key.length).toNat = key.length := Nat.mod_eq_of_lt (by omega)
  refine ⟨u, ?_, issueAll_keeps_inv ht hread⟩
  rw [hkey] at hread
  change issueAll (readCommands key.length) t = _ at hread
  simp only [decodeSecret, hdecode, List.getLastD_concat, hlen, hindex.not_gt, if_false, hread, map_setWidth_bytes]

-- # The digest

/-- The digest bytes loaded so far: those of `DG` below `DGN`. -/
def loadedBytes (s : State) : List Byte := (List.range s.trn.dgn.toNat).map fun k => byteAt .dg k s

@[simp] theorem length_loadedBytes (s : State) : (loadedBytes s).length = s.trn.dgn.toNat := by simp [loadedBytes]

theorem loadedBytes_of_trn_eq (h : t.trn = s.trn) : loadedBytes t = loadedBytes s := by
  simp only [loadedBytes, byteAt_dg, h]

/-- A pushed byte follows the bytes loaded before it (41_truncate.md R81). -/
theorem loadedBytes_pushedState (b : Byte) (hwf : Memory.wf s.trn.dg = true) (hopen : s.trn.dgn.toNat < 20) :
    loadedBytes (pushedState b s) = loadedBytes s ++ [b] := by
  have hold : ∀ k ∈ List.range s.trn.dgn.toNat, byteAt .dg k (pushedState b s) = byteAt .dg k s :=
    fun k hk => byteAt_pushedState_other b (List.mem_range.1 hk).ne
  rw [loadedBytes, pushedState_dgn_toNat b hopen, List.range_succ, List.map_append, List.map_congr_left hold,
    List.map_singleton, byteAt_pushedState_same b hwf, loadedBytes]

theorem issue_push (b : Byte) (h : Inv s) (hopen : s.trn.dgn.toNat < 20) :
    ∃ t, issue (commandWord 0x21 b) s = .ok (0, t) ∧ loadedBytes t = loadedBytes s ++ [b] := by
  have hempty := h.ports [] s.resp
  rcases execTrnPush_cases b { s with inputs := [] } with ⟨hfull, -⟩ | ⟨-, he⟩
  · exact absurd hopen hfull.not_gt
  · exact ⟨_, issue_respondOk (decode_encode (i := .trnPush b) rfl) he,
      loadedBytes_pushedState b hempty.dgCanonical hopen⟩

theorem issueAll_pushes {digest : List Byte} (h : Inv s) (hroom : s.trn.dgn.toNat + digest.length ≤ 20) :
    ∃ t, issueAll (digest.map fun b => commandWord 0x21 b) s = .ok (List.replicate digest.length 0, t) ∧
      loadedBytes t = loadedBytes s ++ digest := by
  induction digest generalizing s with
  | nil => exact ⟨s, rfl, (List.append_nil _).symm⟩
  | cons b digest ih =>
    rw [List.length_cons] at hroom
    obtain ⟨t, ht, hloaded⟩ := issue_push b h (by omega)
    have hcount : t.trn.dgn.toNat = s.trn.dgn.toNat + 1 := by simpa using congrArg List.length hloaded
    obtain ⟨u, hu, hall⟩ := ih (issue_keeps_inv h ht) (by omega)
    refine ⟨u, issueAll_cons_ok ht hu, ?_⟩
    rw [hall, hloaded, List.append_assoc, List.singleton_append]

theorem issueAll_load {digest : List Byte} (h : Inv s) (hlen : digest.length ≤ 20) :
    ∃ t, issueAll (loadCommands digest) s = .ok (List.replicate (digest.length + 1) 0, t) ∧
      loadedBytes t = digest := by
  have hclear : issue 0x2000 s = .ok (0, _) := issue_respondOk (i := .trnClr) rfl rfl
  obtain ⟨t, ht, hloaded⟩ := issueAll_pushes (issue_keeps_inv h hclear) ((Nat.zero_add _).trans_le hlen)
  exact ⟨t, issueAll_cons_ok hclear ht, hloaded⟩

-- # The code

theorem issue_trnGo (hloaded : s.trn.dgn.toNat = 20) :
    ∃ d t, issue 0x2200 s = .ok (d, t) ∧ t.trn.binv = true ∧ loadedBytes t = loadedBytes s := by
  rcases execTrnGo_cases { s with inputs := [] } with ⟨hshort, -⟩ | ⟨-, o, b, -, he⟩
  · exact absurd hloaded hshort
  · exact ⟨b, _, issue_respondOk (i := .trnGo) rfl he, rfl, rfl⟩

theorem issue_digGo (hbinv : s.trn.binv = true) :
    ∃ d t, issue 0x3000 s = .ok (d, t) ∧ t.dig.digv = true ∧ t.trn = s.trn := by
  rcases execDigGo_cases { s with inputs := [] } with ⟨hclear, -⟩ | ⟨-, m, -, he⟩
  · exact absurd (hbinv.symm.trans hclear) (by decide)
  · exact ⟨_, _, issue_respondOk (i := .digGo) rfl he, rfl, rfl⟩

/-- A valid code is the six digits of the truncation of the loaded digest (42_digits.md R91, R93). -/
theorem codeChars_eq_sixDigits (h : Inv s) (hdigv : s.dig.digv = true) :
    (List.range 6).map (fun k => byteAt .code k s) = sixDigits (digestNumber (loadedBytes s) % 1000000) := by
  obtain ⟨-, -, -, hnum⟩ := validCodeSpellsTheDigestNow s h hdigv
  have hdgn : s.trn.dgn.toNat = 20 := h.binvLoaded (h.digvValid hdigv)
  have hchar : ∀ k ∈ List.range 6, byteAt .code k s = BitVec.ofNat 8 (0x30 + s.dig.num.toNat / 10 ^ (5 - k) % 10) :=
    fun k hk => by
      rw [← h.codeChar_toNat hdigv (List.mem_range.1 hk), BitVec.ofNat_toNat, BitVec.setWidth_eq]
  rw [List.map_congr_left hchar, loadedBytes, hdgn, ← hnum]
  rfl

theorem codeCommands_eq : codeCommands =
    0x2200 :: 0x3000 :: (List.range 6).map fun i => commandWord 0x31 (BitVec.ofNat 8 i) := by decide

theorem issueAll_code (h : Inv s) (hloaded : s.trn.dgn.toNat = 20) :
    ∃ d e t, issueAll codeCommands s = .ok (d :: e ::
      (sixDigits (digestNumber (loadedBytes s) % 1000000)).map (BitVec.setWidth 32), t) := by
  obtain ⟨d, t, htrn, hbinv, hkept⟩ := issue_trnGo hloaded
  obtain ⟨e, u, hdig, hdigv, hsame⟩ := issue_digGo hbinv
  have hu : Inv u := issue_keeps_inv (issue_keeps_inv h htrn) hdig
  obtain ⟨v, hread⟩ := issueAll_reads (s := u) (indices := List.range 6) (fun i hi =>
    readsAs_rdc hdigv (Nat.le_of_lt_succ (List.mem_range.1 hi))) u.inputs u.resp
  refine ⟨d, e, v, ?_⟩
  rw [codeCommands_eq, ← hkept, ← loadedBytes_of_trn_eq hsame, ← codeChars_eq_sixDigits hu hdigv, List.map_map]
  exact issueAll_cons_ok htrn (issueAll_cons_ok hdig hread)

/-- A digest of 20 bytes is answered by the six digits of its truncation. -/
theorem codeOfDigest_eq {digest : List Byte} (h : Inv s) (hlen : digest.length = 20) :
    ∃ t, codeOfDigest digest s = .ok (sixDigits (digestNumber digest % 1000000), t) := by
  obtain ⟨t, hload, hloaded⟩ := issueAll_load h hlen.le
  have hdgn : t.trn.dgn.toNat = 20 := by rw [← length_loadedBytes, hloaded, hlen]
  obtain ⟨d, e, u, hcode⟩ := issueAll_code (issueAll_keeps_inv h hload) hdgn
  have hdrop (chars : List Data) : (List.replicate (digest.length + 1) 0 ++ d :: e :: chars).drop (digest.length + 3) =
      chars := by
    simp [List.drop_append, show digest.length + 3 - (digest.length + 1) = 2 by omega]
  refine ⟨u, ?_⟩
  rw [hloaded] at hcode
  simp only [codeOfDigest, issueAll_append_ok hload hcode, hdrop]
  rw [map_setWidth_bytes]

end

end Sys2Proof.Machine
end

section
/-! D0's `generate` (44_host_contract.md R102, R114, R115): which way it ends, by the split of the secret at its first
character above 0xFF and by what the block answers. -/

namespace Sys2Proof.Machine

open Sys2Proof.Config

section
variable {hmac : List Byte → List Byte → List Byte} {tie : RoundTie} {now : Rat} {secret : List Nat}
  {symbols : List Byte} {s : State} {f : HostFailure}

/-- Characters that fit the port stand before the split. -/
theorem portSymbols_append (before : List Byte) (rest : List Nat) :
    portSymbols (before.map BitVec.toNat ++ rest) = (before ++ (portSymbols rest).1, (portSymbols rest).2) := by
  induction before with
  | nil => rfl
  | cons b before ih =>
    have hfits : ¬ 0xFF < b.toNat := by have := b.isLt; omega
    simp [portSymbols, hfits, ih]

theorem portSymbols_bytes (str : List Byte) : portSymbols (str.map BitVec.toNat) = (str, none) := by
  simpa [portSymbols] using portSymbols_append str []

theorem portSymbols_wide (before : List Byte) {c : Nat} (hc : 0xFF < c) (after : List Nat) :
    portSymbols (before.map BitVec.toNat ++ c :: after) = (before, some c) := by
  simp [portSymbols_append, portSymbols, hc]

theorem wideOffender_of_padding {c : Nat} (h : symbols.getLast? = some padCode) :
    wideOffender symbols c = padCode.toNat := if_pos h

theorem wideOffender_of_not_padding {c : Nat} (h : symbols.getLast? ≠ some padCode) : wideOffender symbols c = c :=
  if_neg h

/-- Inside the contract `generate` does not refuse the instant. -/
theorem InContract.not_refused (h : InContract tie now) : ¬ (unixNow tie now < 0 ∨ 2 ^ 64 ≤ timeStep tie now) := by
  obtain ⟨hnonneg, hstep⟩ := h
  omega

-- # How `generate` ends

theorem generate_of_wide_error (ht : InContract tie now) {c : Nat} (hsecret : portSymbols secret = (symbols, some c))
    (h : issueAll (0x1000 :: symbolCommands symbols) s = .error f) : generate hmac tie secret now s = .error f := by
  rw [symbolCommands] at h
  simp only [generate, ht.not_refused, if_false, hsecret, h]

theorem generate_of_wide_ok (ht : InContract tie now) {c : Nat} (hsecret : portSymbols secret = (symbols, some c))
    {r : List Data × State} (h : issueAll (0x1000 :: symbolCommands symbols) s = .ok r) :
    generate hmac tie secret now s = .error (.invalidCharacter (wideOffender symbols c)) := by
  rw [symbolCommands] at h
  simp only [generate, ht.not_refused, if_false, hsecret, h]

theorem generate_of_decodeSecret_error (ht : InContract tie now) (hsecret : portSymbols secret = (symbols, none))
    (h : decodeSecret symbols s = .error f) : generate hmac tie secret now s = .error f := by
  simp only [generate, ht.not_refused, if_false, hsecret, h]

theorem generate_of_codeOfDigest_error (ht : InContract tie now) (hsecret : portSymbols secret = (symbols, none))
    {key : List Byte} {t : State} (hkey : decodeSecret symbols s = .ok (key, t))
    (hcode : codeOfDigest (hmac key (movingFactor (timeStep tie now))) t = .error f) :
    generate hmac tie secret now s = .error f := by
  simp only [generate, ht.not_refused, if_false, hsecret, hkey, hcode]

theorem generate_of_ok (ht : InContract tie now) (hsecret : portSymbols secret = (symbols, none)) {key code : List Byte}
    {t u : State} (hkey : decodeSecret symbols s = .ok (key, t))
    (hcode : codeOfDigest (hmac key (movingFactor (timeStep tie now))) t = .ok (code, u)) :
    generate hmac tie secret now s = .ok ({ code := code, expiry := expiryUtc tie now }, u) := by
  simp only [generate, ht.not_refused, if_false, hsecret, hkey, hcode]

theorem decodeSecret_failure (h : decodeSecret symbols s = .error f) : f ≠ .timeOutOfRange := by
  unfold decodeSecret at h
  split at h
  · rename_i hdecode
    cases h
    exact (issueAll_failure hdecode).1
  · dsimp only at h
    split at h
    · cases h; exact nofun
    · split at h
      · rename_i hread
        cases h
        exact (issueAll_failure hread).1
      · cases h

theorem codeOfDigest_failure {digest : List Byte} (h : codeOfDigest digest s = .error f) : f ≠ .timeOutOfRange := by
  unfold codeOfDigest at h
  split at h
  · rename_i hissue
    cases h
    exact (issueAll_failure hissue).1
  · cases h

/-- An instant inside the contract is never the reason of a failure. -/
theorem generate_ne_timeOutOfRange (ht : InContract tie now) :
    generate hmac tie secret now s ≠ .error .timeOutOfRange := by
  intro h
  rcases hsecret : portSymbols secret with ⟨symbols, _ | c⟩
  · cases hkey : decodeSecret symbols s with
    | error f =>
      rw [generate_of_decodeSecret_error ht hsecret hkey] at h
      exact decodeSecret_failure hkey (Except.error.inj h)
    | ok r =>
      cases hcode : codeOfDigest (hmac r.1 (movingFactor (timeStep tie now))) r.2 with
      | error f =>
        rw [generate_of_codeOfDigest_error ht hsecret hkey hcode] at h
        exact codeOfDigest_failure hcode (Except.error.inj h)
      | ok r' =>
        rw [generate_of_ok ht hsecret hkey hcode] at h
        cases h
  · cases hissue : issueAll (0x1000 :: symbolCommands symbols) s with
    | error f =>
      rw [generate_of_wide_error ht hsecret hissue] at h
      exact (issueAll_failure hissue).1 (Except.error.inj h)
    | ok r =>
      rw [generate_of_wide_ok ht hsecret hissue] at h
      cases h

theorem generate_eq_timeOutOfRange_iff : generate hmac tie secret now s = .error .timeOutOfRange ↔
    unixNow tie now < 0 ∨ 2 ^ 64 ≤ timeStep tie now := by
  constructor
  · intro h
    by_contra hin
    push Not at hin
    exact generate_ne_timeOutOfRange hin h
  · intro h
    simp only [generate, h, if_true]

end

-- # The statements about `generate`

/-- Settles O55: the secret is read out, and the digest of its key and the moving factor is answered by its digits. -/
theorem generateGivesTheTotpCode : Obligations.GenerateGivesTheTotpCode := by
  intro hmac tie secret key now s h ht hstr hindex hfits hlen
  obtain ⟨t, hkey, hinv⟩ := decodeSecret_of_ok h hfits hindex hstr
  obtain ⟨u, hcode⟩ := codeOfDigest_eq hinv hlen
  exact ⟨u, generate_of_ok ht (portSymbols_bytes secret) hkey hcode⟩

/-- Settles O56: the decode of the secret fails, and `generate` with it. -/
theorem generateReportsInvalidCharacter : Obligations.GenerateReportsInvalidCharacter :=
  fun _ _ secret _ _ _ h ht hstr hroom =>
    generate_of_decodeSecret_error ht (portSymbols_bytes secret) (decodeSecret_of_error h hroom hstr)

/-- Settles O57: the symbols before the wide character fail, or they are accepted and `wideOffender` decides. -/
theorem generateReportsWideCharacter : Obligations.GenerateReportsWideCharacter := by
  intro hmac tie before c after now s h ht hroom hc
  have hsplit := portSymbols_wide before hc after
  obtain ⟨t, hstart, hopen⟩ := issue_start h
  have haccepted : ∀ bytes, wholeDecode before = .ok bytes →
      generate hmac tie (before.map BitVec.toNat ++ c :: after) now s =
        .error (.invalidCharacter (wideOffender before c)) := fun bytes hstr => by
    obtain ⟨-, -, u, hsymbols, -⟩ := issueAll_symbols_of_ok hopen hroom hstr
    exact generate_of_wide_ok ht hsplit (issueAll_cons_ok hstart hsymbols)
  refine ⟨fun b hstr => ?_, fun bytes hstr hlast => ?_, fun bytes hstr hlast => ?_⟩
  · exact generate_of_wide_error ht hsplit
      (issueAll_cons_error hstart (issueAll_symbols_of_error hopen hroom hstr))
  · rw [haccepted bytes hstr, wideOffender_of_padding hlast]
    rfl
  · rw [haccepted bytes hstr, wideOffender_of_not_padding hlast]

/-- Settles O58: `generate` depends on the instant by its time step and its expiry, and the step fixes the expiry. -/
theorem codeIsStableWithinAStep : Obligations.CodeIsStableWithinAStep := by
  intro hmac tie secret now now' s h h' hstep
  have hexpiry : expiryUtc tie now = expiryUtc tie now' := by
    rw [expiryUtc_of_nonneg h, expiryUtc_of_nonneg h', hstep]
  simp only [generate, h.not_gt, h'.not_gt, hstep, hexpiry]

/-- Settles O59: a quotient of a number that is not negative is rounded alike in either direction. -/
theorem timeStepAndItsDomain : Obligations.TimeStepAndItsDomain := by
  refine ⟨fun tie now h => ?_, unixNow_nonneg_iff, fun _ _ _ _ _ => generate_eq_timeOutOfRange_iff⟩
  rw [timeStep_of_nonneg h, Int.tdiv_eq_ediv_of_nonneg h, Int.fdiv_eq_ediv_of_nonneg _ (by decide)]
  exact ⟨rfl, rfl⟩

end Sys2Proof.Machine
end

section
/-! Which words are illegal (30_encoding.md R49), read off the rows of the opcode map, and what a step does with one
(60_exceptions.md R124). -/

namespace Sys2Proof

open Sys2Proof.Machine

variable {w : CommandWord}

theorem commandWord_toNat (op arg : Byte) : (commandWord op arg).toNat = 256 * op.toNat + arg.toNat :=
  toNat_fields rfl op arg

theorem opField_toNat (w : CommandWord) : (opField w).toNat = w.toNat / 256 := by
  have hw := commandWord_toNat (opField w) (argField w)
  rw [commandWord_fields] at hw
  omega

/-- A row with an operand is selected by the number of its operation code. -/
theorem selects_operandRow_iff (p : CommandWord) (build : Byte → Instr) :
    CommandRow.selects ⟨p, 0xFF00, build⟩ w = true ↔ 256 * (w.toNat / 256) = p.toNat := by
  have hmask : w &&& 0xFF00 = commandWord (opField w) 0 := by
    rw [← commandWord_masked (opField w) (argField w), commandWord_fields]; rfl
  rw [CommandRow.selects, beq_iff_eq, hmask, ← BitVec.toNat_inj, commandWord_toNat, opField_toNat]
  rfl

/-- A row without an operand is selected by one word. -/
theorem selects_wordRow_iff (p : CommandWord) (build : Byte → Instr) :
    CommandRow.selects ⟨p, 0xFFFF, build⟩ w = true ↔ w.toNat = p.toNat := by
  have hmask : w &&& 0xFFFF = w := BitVec.and_allOnes
  rw [CommandRow.selects, beq_iff_eq, hmask, BitVec.toNat_inj]

/-- The words R49 lists are those that select no row of the opcode map. -/
theorem illegalWord_iff : IllegalWord w ↔ ∀ r ∈ commandRows, ¬ r.selects w = true := by
  simp only [commandRows, List.cons_append, List.nil_append, List.forall_mem_cons, List.not_mem_nil,
    false_imp_iff, implies_true, and_true, selects_operandRow_iff, selects_wordRow_iff, BitVec.reduceToNat]
  simp only [IllegalWord, List.mem_cons, List.not_mem_nil, or_false]
  omega

/-- A word decodes exactly where it selects a row. -/
theorem exists_decode_eq_ok_iff : (∃ i, decode w = .ok i) ↔ ¬ IllegalWord w := by
  simp only [decode_eq_ok_iff, illegalWord_iff, not_forall, not_not]
  exact ⟨fun ⟨_, r, hr, hsel, _⟩ => ⟨r, hr, hsel⟩, fun ⟨r, hr, hsel⟩ => ⟨_, r, hr, hsel, rfl⟩⟩

theorem executeWord_illegal (h : IllegalWord w) (s : State) : executeWord w s = raise (.illegalCommand w) s := by
  unfold executeWord
  cases hd : decode w with
  | ok i => exact absurd h (exists_decode_eq_ok_iff.1 ⟨i, hd⟩)
  | error e => rfl

/-- Settles O4: an illegal word selects no row, and its refusal records nothing but the answer. -/
theorem illegalWordsAreRefused : Obligations.IllegalWordsAreRefused :=
  fun _ => ⟨fun h _ _ hin => (step_command hin).trans (executeWord_illegal h _), exists_decode_eq_ok_iff.2⟩

end Sys2Proof
end

section
/-! What a command answers and what it then changes (60_exceptions.md sections 1 and 3), from the inversion
`exec_effect`. -/

namespace Sys2Proof.Machine

/-- The three kinds of answer of a command that goes on in `t` (R120): `OK`, a refusal that records nothing, and a call
fault, which only a symbol in an open call has (R121, R128). -/
inductive Answer (i : Instr) (s t : State) : Prop
  | ok (d : Data) : t.resp = some { fc := .ok, data := d } → Answer i s t
  | refusal (fc : FaultCode) : fc = .sequence ∨ fc = .range → t = respond fc 0 s → Answer i s t
  | callFault (fc : FaultCode) (c : Byte) : fc = .invalidCharacter ∨ fc = .capacity ∧ c = 0 →
      (symbolOf i).isSome = true → s.b32.st = .run →
      t = respond fc (c.setWidth 32) (recordCallFault fc c s) → Answer i s t

theorem answer_of_exec_next {i : Instr} {s t : State} (h : exec i s = .next t) : Answer i s t := by
  cases effect_of_exec_next h with
  | refuse r hr =>
    rcases hr with rfl | rfl
    · exact .refusal .sequence (.inl rfl) rfl
    · exact .refusal .range (.inr rfl) rfl
  | badSymbol b hsym hrun => exact .callFault .invalidCharacter b (.inl rfl) hsym hrun rfl
  | noRoom hsym hrun _ => exact .callFault .capacity 0 (.inr ⟨rfl, rfl⟩) hsym hrun rfl
  | read | reset | start | pad | fits | straddles | close | flush | clear | push | truncate | format =>
    exact .ok _ rfl

/-- Settles O33: of the three kinds of answer only a refusal has the code of one. -/
theorem refusalsChangeNoState : Obligations.RefusalsChangeNoState := by
  intro i s t fc d h hresp hfc
  cases answer_of_exec_next h with
  | ok e he =>
    cases he.symm.trans hresp
    simp at hfc
  | refusal gc _ ht =>
    subst ht; cases hresp; rfl
  | callFault gc c hgc _ _ ht =>
    subst ht; cases hresp
    rcases hgc with rfl | ⟨rfl, -⟩ <;> simp at hfc

/-- Settles O34: of the three kinds of answer only a call fault has the code of one. -/
theorem callFaultsArePrecise : Obligations.CallFaultsArePrecise := by
  intro i s t fc d h hresp hfc
  cases answer_of_exec_next h with
  | ok e he =>
    cases he.symm.trans hresp
    simp at hfc
  | refusal gc hgc ht =>
    subst ht; cases hresp
    rcases hgc with rfl | rfl <;> simp at hfc
  | callFault gc c hgc hsym hrun ht =>
    subst ht; cases hresp
    refine ⟨hsym, hrun, by simp [respond, recordCallFault], ?_, ?_⟩
    · rw [BitVec.toNat_setWidth_of_le (by decide)]; exact c.isLt
    · rcases hgc with rfl | ⟨-, rfl⟩
      · nofun
      · exact fun _ => rfl

theorem exec_ne_refused (i : Instr) (s : State) (r : Refusal) : exec i s ≠ .refused r := by
  intro h
  have he : Effect i s (.refused r) := h ▸ exec_effect i s
  cases he

theorem executeWord_ne_refused (w : CommandWord) (s : State) (r : Refusal) : executeWord w s ≠ .refused r := by
  unfold executeWord
  cases decode w with
  | ok i => exact exec_ne_refused i s r
  | error _ => nofun

/-- Settles O40: no effect of a command is a refusal, and the other steps go on. -/
theorem noStepIsRefused : Obligations.NoStepIsRefused := by
  intro s r
  cases hin : s.inputs with
  | nil => rw [step_of_inputs_nil hin]; nofun
  | cons x rest =>
    cases x with
    | command w => rw [step_command hin]; exact executeWord_ne_refused w _ r
    | reset => simp only [step, hin]; nofun

end Sys2Proof.Machine
end

section
/-! The table of `Sequence` (60_exceptions.md R125): a command answers it exactly outside the states of its row. -/

namespace Sys2Proof.Machine

-- # The rows of the commands with an operand

theorem acceptedWhen_rdreg (n : Byte) (s : State) : acceptedWhen (.rdreg n) s := by
  simp [acceptedWhen, opOf, encode]

theorem acceptedWhen_b32Rdb_iff (n : Byte) (s : State) : acceptedWhen (.b32Rdb n) s ↔ s.b32.st = .done := by
  simp [acceptedWhen, opOf, encode]

theorem acceptedWhen_trnPush_iff (b : Byte) (s : State) : acceptedWhen (.trnPush b) s ↔ s.trn.dgn.toNat < 20 := by
  simp [acceptedWhen, opOf, encode]

theorem acceptedWhen_digRdc_iff (n : Byte) (s : State) : acceptedWhen (.digRdc n) s ↔ s.dig.digv = true := by
  simp [acceptedWhen, opOf, encode]

theorem acceptedWhen_symbol_iff {i : Instr} {c : Byte} (h : symbolOf i = some c) (s : State) :
    acceptedWhen i s ↔ s.b32.st = .run := by
  simp [acceptedWhen, opOf, encode_of_symbolOf h]

-- # Results that answer `Sequence`

/-- The result is the answer `Sequence`, with any data. -/
def AnswersSequence (x : Result) : Prop := ∃ t d, x = .next t ∧ t.resp = some { fc := .sequence, data := d }

theorem not_answersSequence_respondOk (d : Data) (s : State) : ¬ AnswersSequence (respondOk d s) := by
  rintro ⟨t, e, h, hresp⟩
  cases h; cases hresp

theorem not_answersSequence_raise {r : Raised} (hr : r ≠ .sequence) (s : State) : ¬ AnswersSequence (raise r s) := by
  rintro ⟨t, e, h, hresp⟩
  cases h
  cases r with
  | sequence => exact hr rfl
  | invalidCharacter | illegalCommand | range | capacity => cases hresp

theorem not_answersSequence_fault (f : Fault) : ¬ AnswersSequence (.fault f) := by
  rintro ⟨t, d, h, -⟩
  cases h

/-- What R125 asks of the result of a command in a state its row accepts or does not. -/
inductive SequenceRow (accepted : Prop) (s : State) (x : Result) : Prop
  | refused : ¬ accepted → x = raise .sequence s → SequenceRow accepted s x
  | accepted : accepted → ¬ AnswersSequence x → SequenceRow accepted s x

theorem acceptValue_not_answersSequence (v : SymValue) (s : State) : ¬ AnswersSequence (acceptValue v s) := by
  rcases acceptValue_cases v s with ⟨-, h⟩ | ⟨-, -, h⟩ | ⟨-, -, h⟩ | ⟨-, -, h⟩ <;> rw [h]
  · exact not_answersSequence_respondOk _ _
  · exact not_answersSequence_raise (by simp) s
  · exact not_answersSequence_respondOk _ _
  · exact not_answersSequence_fault _

theorem deliverSymbol_sequenceRow (c : Byte) (s : State) :
    SequenceRow (s.b32.st = .run) s (deliverSymbol c s) := by
  rcases deliverSymbol_cases c s with ⟨hst, h⟩ | ⟨hrun, b, h⟩ | ⟨hrun, h⟩ | ⟨hrun, -, v, -, h⟩
  · exact .refused hst h
  · exact .accepted hrun (h ▸ not_answersSequence_raise (by simp) s)
  · exact .accepted hrun (h ▸ not_answersSequence_respondOk _ _)
  · exact .accepted hrun (h ▸ acceptValue_not_answersSequence v s)

theorem execB32End_sequenceRow (s : State) : SequenceRow (s.b32.st = .run) s (execB32End s) := by
  rcases execB32End_cases s with ⟨hst, h⟩ | ⟨hrun, -, h⟩ | ⟨hrun, -, -, h⟩ | ⟨hrun, -, -, h⟩
  · exact .refused hst h
  · exact .accepted hrun (h ▸ not_answersSequence_respondOk _ _)
  · exact .accepted hrun (h ▸ not_answersSequence_respondOk _ _)
  · exact .accepted hrun (h ▸ not_answersSequence_fault _)

theorem execB32Rdb_sequenceRow (n : Byte) (s : State) : SequenceRow (s.b32.st = .done) s (execB32Rdb n s) := by
  rcases execB32Rdb_cases n s with ⟨hst, h⟩ | ⟨hdone, -, h⟩ | ⟨hdone, -, h⟩ | ⟨hdone, -, -, h⟩
  · exact .refused hst h
  · exact .accepted hdone (h ▸ not_answersSequence_raise (by simp) s)
  · exact .accepted hdone (h ▸ not_answersSequence_respondOk _ _)
  · exact .accepted hdone (h ▸ not_answersSequence_fault _)

theorem execTrnPush_sequenceRow (b : Byte) (s : State) : SequenceRow (s.trn.dgn.toNat < 20) s (execTrnPush b s) := by
  rcases execTrnPush_cases b s with ⟨hfull, h⟩ | ⟨hopen, h⟩
  · exact .refused hfull.not_gt h
  · exact .accepted hopen (h ▸ not_answersSequence_respondOk _ _)

theorem execTrnGo_sequenceRow (s : State) : SequenceRow (s.trn.dgn.toNat = 20) s (execTrnGo s) := by
  rcases execTrnGo_cases s with ⟨hdgn, h⟩ | ⟨hdgn, _, _, -, h⟩
  · exact .refused hdgn h
  · exact .accepted hdgn (h ▸ not_answersSequence_respondOk _ _)

theorem execDigGo_sequenceRow (s : State) : SequenceRow (s.trn.binv = true) s (execDigGo s) := by
  rcases execDigGo_cases s with ⟨hbinv, h⟩ | ⟨hbinv, _, -, h⟩
  · exact .refused (by simp [hbinv]) h
  · exact .accepted hbinv (h ▸ not_answersSequence_respondOk _ _)

theorem execDigRdc_sequenceRow (n : Byte) (s : State) : SequenceRow (s.dig.digv = true) s (execDigRdc n s) := by
  rcases execDigRdc_cases n s with ⟨hdigv, h⟩ | ⟨hdigv, -, h⟩ | ⟨hdigv, -, h⟩
  · exact .refused (by simp [hdigv]) h
  · exact .accepted hdigv (h ▸ not_answersSequence_raise (by simp) s)
  · exact .accepted hdigv (h ▸ not_answersSequence_respondOk _ _)

theorem execRdreg_not_answersSequence (n : Byte) (s : State) : ¬ AnswersSequence (execRdreg n s) := by
  rcases execRdreg_cases n s with h | ⟨d, h⟩ <;> rw [h]
  · exact not_answersSequence_raise (by simp) s
  · exact not_answersSequence_respondOk d s

/-- Every command against its own row, the commands without one accepted in every state. -/
theorem exec_sequenceRow (i : Instr) (s : State) : SequenceRow (acceptedWhen i s) s (exec i s) := by
  rcases instr_shapes i with ⟨n, rfl⟩ | rfl | rfl | rfl | ⟨n, rfl⟩ | rfl | ⟨b, rfl⟩ | rfl | rfl | ⟨n, rfl⟩ | ⟨c, hc⟩
  · exact .accepted (acceptedWhen_rdreg n s) (execRdreg_not_answersSequence n s)
  · exact .accepted trivial (not_answersSequence_respondOk _ _)
  · exact .accepted trivial (not_answersSequence_respondOk _ _)
  · exact execB32End_sequenceRow s
  · rw [acceptedWhen_b32Rdb_iff]; exact execB32Rdb_sequenceRow n s
  · exact .accepted trivial (not_answersSequence_respondOk _ _)
  · rw [acceptedWhen_trnPush_iff]; exact execTrnPush_sequenceRow b s
  · exact execTrnGo_sequenceRow s
  · exact execDigGo_sequenceRow s
  · rw [acceptedWhen_digRdc_iff]; exact execDigRdc_sequenceRow n s
  · rw [acceptedWhen_symbol_iff hc, exec_symbol hc]; exact deliverSymbol_sequenceRow c s

/-- Settles O32: a refusal with `Sequence` is the answer alone, and no accepted command has that answer. -/
theorem sequenceTable : Obligations.SequenceTable := by
  intro i s
  cases exec_sequenceRow i s with
  | refused hno hx => exact ⟨fun _ => hx, fun hacc => absurd hacc hno⟩
  | accepted hacc hx => exact ⟨fun hno => absurd hacc hno, fun _ t d h hresp => hx ⟨t, d, h, hresp⟩⟩

end Sys2Proof.Machine
end

section
/-! One step and its answer (70_reset_and_hazards.md R140, R147): the reset input leaves no response, and from a state
that meets the invariant a command neither stops nor goes unanswered. -/

namespace Sys2Proof.Machine

/-- A step with the reset input on the port resets the block: the companion of `step_command`. -/
theorem step_reset {s : State} {rest : List Input} (h : s.inputs = .reset :: rest) :
    step s = .next (hardwareReset { s with inputs := rest }) := by
  simp [step, h, takeInput]

/-- Settles O11: the state after the reset input, field by field. -/
theorem hardwareResetGivesNoResponse : Obligations.HardwareResetGivesNoResponse :=
  fun _ _ hin => ⟨_, step_reset hin, rfl, rfl, rfl⟩

/-- Under the invariant a command goes on: only a broken invariant stops it (O39), and no command is refused by the
model (O40). -/
theorem Inv.exec_next {s : State} (h : Inv s) (i : Instr) : ∃ t, exec i s = .next t := by
  cases he : exec i s with
  | next t => exact ⟨t, rfl⟩
  | fault f =>
    obtain ⟨_, -, -, hbroken⟩ := onlyAnOutIndexPastTheEndStops i s f he
    exact absurd h hbroken
  | refused r => exact absurd he (exec_ne_refused i s r)

theorem Answer.resp_isSome {i : Instr} {s t : State} (h : Answer i s t) : t.resp.isSome = true := by
  cases h with
  | ok d hresp => rw [hresp]; rfl
  | refusal fc _ ht => rw [ht]; rfl
  | callFault fc c _ _ _ ht => rw [ht]; rfl

/-- A word that decodes is answered by its command, any other with `IllegalCommand`; neither takes another input. -/
theorem Inv.executeWord_answers {s : State} (h : Inv s) (w : CommandWord) :
    ∃ t, executeWord w s = .next t ∧ t.resp.isSome = true ∧ t.inputs = s.inputs := by
  by_cases hw : IllegalWord w
  · exact ⟨_, executeWord_illegal hw s, rfl, rfl⟩
  · obtain ⟨i, hd⟩ := exists_decode_eq_ok_iff.2 hw
    obtain ⟨t, he⟩ := h.exec_next i
    obtain ⟨-, hinputs⟩ := exec_samePorts he
    exact ⟨t, (executeWord_ok hd).trans he, (answer_of_exec_next he).resp_isSome, hinputs⟩

/-- Settles O43, by cases on the next input: only a command asks for an answer. -/
theorem everyCommandIsAnswered : Obligations.EveryCommandIsAnswered := by
  intro s h
  cases hin : s.inputs with
  | nil => exact ⟨s, step_of_inputs_nil hin, nofun⟩
  | cons x rest =>
    cases x with
    | reset => exact ⟨_, step_reset hin, nofun⟩
    | command w =>
      obtain ⟨t, hstep, hresp, hinputs⟩ := (h.ports rest s.resp).executeWord_answers w
      refine ⟨t, (step_command hin).trans hstep, fun w' rest' heq => ?_⟩
      cases heq
      exact ⟨hresp, hinputs⟩

end Sys2Proof.Machine
end

section
/-! What the unreadable bytes hold makes no difference (93_implementation_defined.md U1, U5). A state a host cannot tell
from `s` is `s` with other byte files, so the two states have the same registers and take the same branches: every
command is followed rule by rule, and only the bytes that are read or become readable are compared. -/

namespace Sys2Proof.Machine

/-- The state with other byte files. -/
def withFiles (m : Space → Memory) (s : State) : State :=
  setFile .out (m .out) (setFile .dg (m .dg) (setFile .code (m .code) s))

theorem SameObservable.exists_eq_withFiles {s s' : State} (h : SameObservable s s') :
    ∃ m : Space → Memory, s' = withFiles m s := by
  refine ⟨fun sp => file sp s', ?_⟩
  obtain ⟨b', t', d', cap', ins', r'⟩ := s'
  obtain ⟨hb, ht, hd, -, -, -, rfl, rfl, rfl⟩ := h
  have hb' : b' = { s.b32 with out := b'.out } := congrArg (fun r => { r with out := b'.out }) hb.symm
  have ht' : t' = { s.trn with dg := t'.dg } := congrArg (fun r => { r with dg := t'.dg }) ht.symm
  have hd' : d' = { s.dig with code := d'.code } := congrArg (fun r => { r with code := d'.code }) hd.symm
  rw [hb', ht', hd']
  rfl

@[simp] theorem inSpace_withFiles (sp : Space) (i : Nat) (m : Space → Memory) (s : State) :
    inSpace sp i (withFiles m s) = inSpace sp i s := by simp [withFiles]

theorem registerOperand_withFiles (n : Byte) (m : Space → Memory) (s : State) :
    registerOperand n (withFiles m s) = registerOperand n s := rfl

-- # Each update of the state

section
variable {s : State} {m : Space → Memory}

theorem SameObservable.respond {s' : State} (h : SameObservable s s') (fc : FaultCode) (d : Data) :
    SameObservable (respond fc d s) (respond fc d s') :=
  { h with resp := rfl }

theorem SameObservable.recordFault (h : SameObservable s (withFiles m s)) (r : Raised) :
    SameObservable (recordFault r s) (recordFault r (withFiles m s)) := by
  cases r with
  | invalidCharacter c => exact { h with b32Registers := rfl }
  | capacity => exact { h with b32Registers := rfl }
  | illegalCommand w => exact h
  | sequence => exact h
  | range => exact h

theorem SameObservable.openCall (h : SameObservable s (withFiles m s)) :
    SameObservable (openCall s) (openCall (withFiles m s)) :=
  { h with b32Registers := rfl, outBytes := by simp }

theorem SameObservable.setPad (h : SameObservable s (withFiles m s)) :
    SameObservable (setPad s) (setPad (withFiles m s)) :=
  { h with b32Registers := rfl }

theorem SameObservable.closeCall (h : SameObservable s (withFiles m s)) :
    SameObservable (closeCall s) (closeCall (withFiles m s)) :=
  { h with b32Registers := rfl }

theorem SameObservable.fitsState (h : SameObservable s (withFiles m s)) (v : SymValue) :
    SameObservable (fitsState v s) (fitsState v (withFiles m s)) :=
  { h with b32Registers := rfl }

/-- The byte that becomes readable is written from the registers. -/
theorem SameObservable.straddlesState (h : SameObservable s (withFiles m s)) (hI : Inv s) (hI' : Inv (withFiles m s))
    (v : SymValue) : SameObservable (straddlesState v s) (straddlesState v (withFiles m s)) :=
  { h with
    b32Registers := rfl
    outBytes := fun j hj => by
      by_cases hje : j = s.b32.ocnt
      · subst hje
        exact (byteAt_straddlesState_same v hI.outCanonical).trans
          (byteAt_straddlesState_same (s := withFiles m s) v hI'.outCanonical).symm
      · rw [byteAt_straddlesState_other v hje, byteAt_straddlesState_other (s := withFiles m s) v hje]
        exact h.outBytes j (Nat.lt_of_le_of_ne (Nat.le_of_lt_succ hj) hje) }

theorem SameObservable.cleared (h : SameObservable s (withFiles m s)) :
    SameObservable (invalidateCode { s with trn := { s.trn with dgn := 0, off := 0, bin := 0, binv := false } })
      (invalidateCode { withFiles m s with
        trn := { (withFiles m s).trn with dgn := 0, off := 0, bin := 0, binv := false } }) :=
  { h with trnRegisters := rfl, digRegisters := rfl, dgBytes := by simp, codeBytes := nofun }

/-- The byte that becomes readable is the operand. -/
theorem SameObservable.pushedState (h : SameObservable s (withFiles m s)) (hI : Inv s) (hI' : Inv (withFiles m s))
    (hopen : s.trn.dgn.toNat < 20) (b : Byte) :
    SameObservable (pushedState b s) (pushedState b (withFiles m s)) :=
  { h with
    trnRegisters := rfl
    dgBytes := fun k hk => by
      rw [pushedState_dgn_toNat b hopen] at hk
      by_cases hke : k = s.trn.dgn.toNat
      · subst hke
        exact (byteAt_pushedState_same b hI.dgCanonical).trans
          (byteAt_pushedState_same (s := withFiles m s) b hI'.dgCanonical).symm
      · rw [byteAt_pushedState_other b hke, byteAt_pushedState_other (s := withFiles m s) b hke]
        exact h.dgBytes k (by omega) }

theorem SameObservable.truncatedState (h : SameObservable s (withFiles m s)) (o : BitVec 4) (b : BitVec 32) :
    SameObservable (truncatedState o b s) (truncatedState o b (withFiles m s)) :=
  { h with trnRegisters := rfl, digRegisters := rfl, codeBytes := nofun }

/-- The six characters that become readable are written from BIN. -/
theorem SameObservable.formattedState (h : SameObservable s (withFiles m s)) (hI : Inv s) (hI' : Inv (withFiles m s))
    {code code' : Memory} (hc : IsFormatted code s) (hc' : IsFormatted code' (withFiles m s)) :
    SameObservable (formattedState code s) (formattedState code' (withFiles m s)) :=
  { h with
    digRegisters := rfl
    codeBytes := fun _ i hi => by
      obtain ⟨k, hk, rfl⟩ : ∃ k, k < 6 ∧ i = 5 - k := ⟨5 - i, by omega, by omega⟩
      exact BitVec.eq_of_toNat_eq ((byteAt_formattedState_digit hc hI.codeCanonical hk).trans
        (byteAt_formattedState_digit hc' hI'.codeCanonical hk).symm) }

end

/-- Reset leaves nothing of the byte files. -/
theorem sameObservable_resetRegisters (m : Space → Memory) (s : State) :
    SameObservable (resetRegisters s) (resetRegisters (withFiles m s)) :=
  ⟨rfl, rfl, rfl, fun _ _ => rfl, fun _ _ => rfl, fun _ _ _ => rfl, rfl, rfl, rfl⟩

theorem sameObservable_hardwareReset (m : Space → Memory) (s : State) :
    SameObservable (hardwareReset s) (hardwareReset (withFiles m s)) :=
  { sameObservable_resetRegisters m s with resp := rfl }

-- # Results

/-- Where `x` goes on, `x'` goes on too, to a state a host cannot tell from the one `x` gives. -/
def FollowedBy (x x' : Result) : Prop := ∀ t, x = .next t → ∃ t', x' = .next t' ∧ SameObservable t t'

theorem FollowedBy.next {t t' : State} (h : SameObservable t t') : FollowedBy (.next t) (.next t') := by
  intro _ ht
  cases ht
  exact ⟨t', rfl, h⟩

theorem FollowedBy.respondOk {t t' : State} (h : SameObservable t t') (d : Data) :
    FollowedBy (respondOk d t) (respondOk d t') :=
  .next (h.respond .ok d)

/-- Both results take the same branch. -/
theorem FollowedBy.ite {c : Prop} [Decidable c] {x y x' y' : Result} (hx : c → FollowedBy x x')
    (hy : ¬ c → FollowedBy y y') : FollowedBy (if c then x else y) (if c then x' else y') := by
  split
  · exact hx ‹_›
  · exact hy ‹_›

section
variable {s : State} {m : Space → Memory}

theorem FollowedBy.raise (h : SameObservable s (withFiles m s)) (r : Raised) :
    FollowedBy (raise r s) (raise r (withFiles m s)) :=
  .next ((h.recordFault r).respond _ _)

/-- A read of a byte the two files agree on. -/
theorem FollowedBy.read {sp : Space} {i : Nat} {k k' : Byte → Result}
    (hb : byteAt sp i s = byteAt sp i (withFiles m s)) (hk : ∀ b, FollowedBy (k b) (k' b)) :
    FollowedBy (onAccess (memRead sp i s) k) (onAccess (memRead sp i (withFiles m s)) k') := by
  have hread : memRead sp i (withFiles m s) = memRead sp i s := by simp only [memRead, inSpace_withFiles, hb]
  rw [hread]
  cases memRead sp i s with
  | ok b => exact hk b
  | error f => exact nofun

/-- A write of one byte to both files. -/
theorem FollowedBy.write {sp : Space} {i : Nat} {v : Byte} {k k' : State → Result}
    (hk : FollowedBy (k (setFile sp ((file sp s).write i v) s))
      (k' (setFile sp ((file sp (withFiles m s)).write i v) (withFiles m s)))) :
    FollowedBy (onAccess (memWrite sp i v s) k) (onAccess (memWrite sp i v (withFiles m s)) k') := by
  cases hin : inSpace sp i s with
  | true =>
    rw [memWrite_ok v hin, memWrite_ok v ((inSpace_withFiles sp i m s).trans hin)]
    exact hk
  | false =>
    simp only [memWrite, hin]
    exact nofun

-- # Each command

theorem acceptValue_followed (h : SameObservable s (withFiles m s)) (hI : Inv s) (hI' : Inv (withFiles m s))
    (v : SymValue) : FollowedBy (acceptValue v s) (acceptValue v (withFiles m s)) :=
  .ite (fun _ => .respondOk (h.fitsState v) 0) fun _ =>
    .ite (fun _ => .raise h .capacity) fun _ => .write (.respondOk (h.straddlesState hI hI' v) 0)

theorem deliverSymbol_followed (h : SameObservable s (withFiles m s)) (hI : Inv s) (hI' : Inv (withFiles m s))
    (c : Byte) : FollowedBy (deliverSymbol c s) (deliverSymbol c (withFiles m s)) := by
  refine .ite (fun _ => .raise h .sequence) fun _ => .ite (fun _ => .raise h _) fun _ => ?_
  cases lookup c with
  | pad => exact .respondOk h.setPad 0
  | none => exact .raise h _
  | value v => exact acceptValue_followed h hI hI' v

/-- The invariant leaves the final flush out, so END writes no byte. -/
theorem execB32End_followed (h : SameObservable s (withFiles m s)) (hI : Inv s) :
    FollowedBy (execB32End s) (execB32End (withFiles m s)) := by
  by_cases hrun : s.b32.st = .run
  · have hlen := expectedLength_le_ocnt hI hrun
    rw [execB32End_of_complete hrun hlen, execB32End_of_complete (s := withFiles m s) hrun hlen]
    exact .respondOk h.closeCall _
  · rw [execB32End_of_not_run hrun, execB32End_of_not_run (s := withFiles m s) hrun]
    exact .raise h _

theorem execB32Rdb_followed (h : SameObservable s (withFiles m s)) (i : Byte) :
    FollowedBy (execB32Rdb i s) (execB32Rdb i (withFiles m s)) :=
  .ite (fun _ => .raise h .sequence) fun _ => .ite (fun _ => .raise h .range) fun hi =>
    .read (h.outBytes _ (Nat.lt_of_not_le hi)) fun _ => .respondOk h _

theorem execTrnPush_followed (h : SameObservable s (withFiles m s)) (hI : Inv s) (hI' : Inv (withFiles m s))
    (b : Byte) : FollowedBy (execTrnPush b s) (execTrnPush b (withFiles m s)) := by
  refine .ite (fun _ => .raise h .sequence) fun hopen => .write (.respondOk (h.pushedState hI hI' ?_ b) 0)
  have hopen : digestOpen s = true := by simpa using hopen
  exact of_decide_eq_true hopen

/-- GO reads a whole digest only, whose 20 bytes are readable and fix the offset and the word. -/
theorem execTrnGo_followed (h : SameObservable s (withFiles m s)) :
    FollowedBy (execTrnGo s) (execTrnGo (withFiles m s)) := by
  rcases execTrnGo_cases s with ⟨hshort, he⟩ | ⟨hfull, o, b, ht, he⟩ <;>
    rcases execTrnGo_cases (withFiles m s) with ⟨hshort', he'⟩ | ⟨hfull', o', b', ht', he'⟩ <;> rw [he, he']
  · exact .raise h _
  · exact absurd hfull' hshort
  · exact absurd hfull hshort'
  · obtain ⟨rfl, rfl⟩ := ht.unique ht' fun k hk => h.dgBytes k (hk.trans_eq hfull.symm)
    exact .respondOk (h.truncatedState o b) b

theorem execDigGo_followed (h : SameObservable s (withFiles m s)) (hI : Inv s) (hI' : Inv (withFiles m s)) :
    FollowedBy (execDigGo s) (execDigGo (withFiles m s)) := by
  rcases execDigGo_cases s with ⟨hno, he⟩ | ⟨hbinv, code, hc, he⟩ <;>
    rcases execDigGo_cases (withFiles m s) with ⟨hno', he'⟩ | ⟨hbinv', code', hc', he'⟩ <;> rw [he, he']
  · exact .raise h _
  · exact absurd (hbinv'.symm.trans hno) nofun
  · exact absurd (hbinv.symm.trans hno') nofun
  · exact .respondOk (h.formattedState hI hI' hc hc') _

theorem execDigRdc_followed (h : SameObservable s (withFiles m s)) (i : Byte) :
    FollowedBy (execDigRdc i s) (execDigRdc i (withFiles m s)) :=
  .ite (fun _ => .raise h .sequence) fun hdigv => .ite (fun _ => .raise h .range) fun hi =>
    .read (h.codeBytes (by simpa using hdigv) _ (Nat.lt_succ_of_le (Nat.le_of_not_lt hi))) fun _ => .respondOk h _

theorem execRdreg_followed (h : SameObservable s (withFiles m s)) (n : Byte) :
    FollowedBy (execRdreg n s) (execRdreg n (withFiles m s)) := by
  rw [execRdreg, execRdreg, registerOperand_withFiles]
  cases registerOperand n s with
  | none => exact .raise h .range
  | some d => exact .respondOk h d

theorem exec_followed (h : SameObservable s (withFiles m s)) (hI : Inv s) (hI' : Inv (withFiles m s)) (i : Instr) :
    FollowedBy (exec i s) (exec i (withFiles m s)) := by
  rcases instr_shapes i with ⟨n, rfl⟩ | rfl | rfl | rfl | ⟨n, rfl⟩ | rfl | ⟨b, rfl⟩ | rfl | rfl | ⟨n, rfl⟩ | ⟨c, hc⟩
  · exact execRdreg_followed h n
  · exact .respondOk (sameObservable_resetRegisters m s) 0
  · exact .respondOk h.openCall 0
  · exact execB32End_followed h hI
  · exact execB32Rdb_followed h n
  · exact .respondOk h.cleared 0
  · exact execTrnPush_followed h hI hI' b
  · exact execTrnGo_followed h
  · exact execDigGo_followed h hI hI'
  · exact execDigRdc_followed h n
  · rw [exec_symbol hc, exec_symbol hc]
    exact deliverSymbol_followed h hI hI' c

-- # Each input

theorem takeInput_followed (h : SameObservable s (withFiles m s)) (hI : Inv s) (hI' : Inv (withFiles m s)) (x : Input) :
    FollowedBy (takeInput x s) (takeInput x (withFiles m s)) := by
  cases x with
  | reset => exact .next (sameObservable_hardwareReset m s)
  | command w =>
    cases hd : decode w with
    | ok i =>
      simp only [takeInput, executeWord_ok hd]
      exact exec_followed h hI hI' i
    | error e =>
      simp only [takeInput, executeWord, hd]
      exact .raise h _

/-- A step with an input on the port takes it: the companion of `step_of_inputs_nil`. -/
theorem step_of_inputs_cons {x : Input} {rest : List Input} (h : s.inputs = x :: rest) :
    step s = takeInput x { s with inputs := rest } := by
  simp only [step, h]

theorem step_followed (h : SameObservable s (withFiles m s)) (hI : Inv s) (hI' : Inv (withFiles m s)) :
    FollowedBy (step s) (step (withFiles m s)) := by
  cases hin : s.inputs with
  | nil =>
    rw [step_of_inputs_nil hin, step_of_inputs_nil (s := withFiles m s) hin]
    exact .next h
  | cons x rest =>
    rw [step_of_inputs_cons hin, step_of_inputs_cons (s := withFiles m s) hin]
    exact takeInput_followed (s := { s with inputs := rest }) { h with inputs := rfl } (hI.ports rest _)
      (hI'.ports rest _) x

end

/-- Settles O45: the second state is the first with other byte files, and every step is followed. -/
theorem unreadableBytesDoNotMatter : Obligations.UnreadableBytesDoNotMatter := by
  intro s s' t hI hI' h
  obtain ⟨m, rfl⟩ := h.exists_eq_withFiles
  exact step_followed h hI hI' t

end Sys2Proof.Machine
end
